-- ==== Sys2Proof/Word.lean ====
section
/-! DEFINITION. The bit-vector types of the spec (00_scope R9, R10): every value is unsigned, bit 0 the least significant. -/

namespace Sys2Proof

/-- A memory byte or the contents of a general register (10_state R21, R22). -/
abbrev Byte := BitVec 8

/-- A 16-bit value: an instruction word, PC, I or a stack slot (30_encoding R70, 10_state R24 to R26). -/
abbrev Word := BitVec 16

/-- A 4-bit field of an instruction: `x`, `y` or `n` (30_encoding R71). -/
abbrev Nib := BitVec 4

/-- A 12-bit address field `nnn` (30_encoding R71). -/
abbrev Addr := BitVec 12

end Sys2Proof
end

