-- ==== Sys2Proof/Syntax.lean ====
section
/-! DEFINITION. The instructions: one constructor per row of the opcode map (30_encoding R76), in the map's order. -/

namespace Sys2Proof

/-- The 35 operations of 30_encoding R76. Operand fields are those of R71. Four rows have a nibble that decoding and
execution ignore (R75, R77, R78); the constructor keeps it, named `ign`, so that an instruction determines its word,
which an event reports (60_exceptions R231; log 20). -/
inductive Instr where
  /-- row 1, 0x0XE0, 43_display R171 -/
  | cls (ign : Nib)
  /-- row 2, 0x0XEE, 41_control_flow R121 -/
  | ret (ign : Nib)
  /-- row 3, 0x0nnn (low byte neither E0 nor EE), 41_control_flow R122 -/
  | sys (nnn : Addr)
  /-- row 4, 0x1nnn, 41_control_flow R123 -/
  | jp (nnn : Addr)
  /-- row 5, 0x2nnn, 41_control_flow R124 -/
  | call (nnn : Addr)
  /-- row 6, 0x3xnn, 41_control_flow R125 -/
  | seImm (x : Nib) (nn : Byte)
  /-- row 7, 0x4xnn, 41_control_flow R126 -/
  | sneImm (x : Nib) (nn : Byte)
  /-- row 8, 0x5xyn, 41_control_flow R127 -/
  | seReg (x y : Nib) (ign : Nib)
  /-- row 9, 0x6xnn, 42_alu R141 -/
  | ldImm (x : Nib) (nn : Byte)
  /-- row 10, 0x7xnn, 42_alu R142 -/
  | addImm (x : Nib) (nn : Byte)
  /-- row 11, 0x8xy0, 42_alu R143 -/
  | ldReg (x y : Nib)
  /-- row 12, 0x8xy1, 42_alu R145 -/
  | orReg (x y : Nib)
  /-- row 13, 0x8xy2, 42_alu R146 -/
  | andReg (x y : Nib)
  /-- row 14, 0x8xy3, 42_alu R147 -/
  | xorReg (x y : Nib)
  /-- row 15, 0x8xy4, 42_alu R149 -/
  | addReg (x y : Nib)
  /-- row 16, 0x8xy5, 42_alu R150 -/
  | subReg (x y : Nib)
  /-- row 17, 0x8xy6, 42_alu R153 -/
  | shr (x y : Nib)
  /-- row 18, 0x8xy7, 42_alu R151 -/
  | subnReg (x y : Nib)
  /-- row 19, 0x8xyE, 42_alu R154 -/
  | shl (x y : Nib)
  /-- row 20, 0x9xyn, 41_control_flow R128 -/
  | sneReg (x y : Nib) (ign : Nib)
  /-- row 21, 0xAnnn, 44_index_memory R191 -/
  | ldI (nnn : Addr)
  /-- row 22, 0xBnnn, 41_control_flow R129 -/
  | jpV0 (nnn : Addr)
  /-- row 23, 0xCxnn, 42_alu R155 -/
  | rnd (x : Nib) (nn : Byte)
  /-- row 24, 0xDxyn, 43_display R172 -/
  | drw (x y n : Nib)
  /-- row 25, 0xEx9E, 45_timers_keys R212 -/
  | skp (x : Nib)
  /-- row 26, 0xExA1, 45_timers_keys R213 -/
  | sknp (x : Nib)
  /-- row 27, 0xFx07, 45_timers_keys R214 -/
  | ldVxDT (x : Nib)
  /-- row 28, 0xFx0A, 45_timers_keys R217 -/
  | ldVxK (x : Nib)
  /-- row 29, 0xFx15, 45_timers_keys R215 -/
  | ldDTVx (x : Nib)
  /-- row 30, 0xFx18, 45_timers_keys R216 -/
  | ldSTVx (x : Nib)
  /-- row 31, 0xFx1E, 44_index_memory R192 -/
  | addI (x : Nib)
  /-- row 32, 0xFx29, 44_index_memory R193 -/
  | ldF (x : Nib)
  /-- row 33, 0xFx33, 44_index_memory R194 -/
  | ldB (x : Nib)
  /-- row 34, 0xFx55, 44_index_memory R195 -/
  | dump (x : Nib)
  /-- row 35, 0xFx65, 44_index_memory R196 -/
  | load (x : Nib)
  deriving DecidableEq, Repr

end Sys2Proof
end

