-- ==== Sys2Proof/WellFormed.lean ====
section
/-! DEFINITION. Which instructions are the instruction of some word. Operand widths are in the types; what remains is that
SYS is "every other word of the family" 0x0 (30_encoding R75). -/

namespace Sys2Proof

/-- A SYS whose low byte is that of CLS or RET is no instruction: that word decodes as CLS or RET (30_encoding R75, R76). -/
def Instr.wellFormed : Instr → Bool
  | .sys nnn => nnn.extractLsb' 0 8 != 0xE0#8 && nnn.extractLsb' 0 8 != 0xEE#8
  | .cls _ | .ret _ | .jp _ | .call _ | .seImm _ _ | .sneImm _ _ | .seReg _ _ _ | .ldImm _ _ | .addImm _ _
  | .ldReg _ _ | .orReg _ _ | .andReg _ _ | .xorReg _ _ | .addReg _ _ | .subReg _ _ | .shr _ _ | .subnReg _ _
  | .shl _ _ | .sneReg _ _ _ | .ldI _ | .jpV0 _ | .rnd _ _ | .drw _ _ _ | .skp _ | .sknp _ | .ldVxDT _
  | .ldVxK _ | .ldDTVx _ | .ldSTVx _ | .addI _ | .ldF _ | .ldB _ | .dump _ | .load _ => true

end Sys2Proof
end

