-- ==== Sys2Proof/Decode.lean ====
section
/-! DEFINITION. The decoder (30_encoding R70 to R85), total on every word and every byte list and rejecting by name, and
the encoder, both written from the field table R71 and the opcode map R76. -/

namespace Sys2Proof

/-- Why bytes are no instruction. -/
inductive Reject where
  /-- the word matches no row of the opcode map (30_encoding R80); the step executes it as R105 says -/
  | unknownInstruction (w : Word)
  /-- fewer than the two bytes of an instruction word (30_encoding R70) -/
  | tooShort
  deriving DecidableEq, Repr

/-- The primary opcode, the top nibble (30_encoding R71). -/
def fieldOp (w : Word) : Nib := w.extractLsb' 12 4

/-- Field `x`, the second nibble (30_encoding R71). -/
def fieldX (w : Word) : Nib := w.extractLsb' 8 4

/-- Field `y`, the third nibble (30_encoding R71). -/
def fieldY (w : Word) : Nib := w.extractLsb' 4 4

/-- Field `n`, the fourth nibble (30_encoding R71). -/
def fieldN (w : Word) : Nib := w.extractLsb' 0 4

/-- Field `nn`, the low byte (30_encoding R71). -/
def fieldNN (w : Word) : Byte := w.extractLsb' 0 8

/-- Field `nnn`, the low 12 bits (30_encoding R71). -/
def fieldNNN (w : Word) : Addr := w.extractLsb' 0 12

/-- Family 0x0, on the low byte; the second nibble is not examined (30_encoding R74, R75). -/
def decodeFamily0 (w : Word) : Except Reject Instr :=
  if fieldNN w = 0xE0#8 then .ok (.cls (fieldX w))
  else if fieldNN w = 0xEE#8 then .ok (.ret (fieldX w))
  else .ok (.sys (fieldNNN w))

/-- Family 0x8, on the low nibble (30_encoding R74). -/
def decodeFamily8 (w : Word) : Except Reject Instr :=
  match fieldN w with
  | 0x0#4 => .ok (.ldReg (fieldX w) (fieldY w))
  | 0x1#4 => .ok (.orReg (fieldX w) (fieldY w))
  | 0x2#4 => .ok (.andReg (fieldX w) (fieldY w))
  | 0x3#4 => .ok (.xorReg (fieldX w) (fieldY w))
  | 0x4#4 => .ok (.addReg (fieldX w) (fieldY w))
  | 0x5#4 => .ok (.subReg (fieldX w) (fieldY w))
  | 0x6#4 => .ok (.shr (fieldX w) (fieldY w))
  | 0x7#4 => .ok (.subnReg (fieldX w) (fieldY w))
  | 0xE#4 => .ok (.shl (fieldX w) (fieldY w))
  | _ => .error (.unknownInstruction w)

/-- Family 0xE, on the low byte (30_encoding R74). -/
def decodeFamilyE (w : Word) : Except Reject Instr :=
  match fieldNN w with
  | 0x9E#8 => .ok (.skp (fieldX w))
  | 0xA1#8 => .ok (.sknp (fieldX w))
  | _ => .error (.unknownInstruction w)

/-- Family 0xF, on the low byte (30_encoding R74). -/
def decodeFamilyF (w : Word) : Except Reject Instr :=
  match fieldNN w with
  | 0x07#8 => .ok (.ldVxDT (fieldX w))
  | 0x0A#8 => .ok (.ldVxK (fieldX w))
  | 0x15#8 => .ok (.ldDTVx (fieldX w))
  | 0x18#8 => .ok (.ldSTVx (fieldX w))
  | 0x1E#8 => .ok (.addI (fieldX w))
  | 0x29#8 => .ok (.ldF (fieldX w))
  | 0x33#8 => .ok (.ldB (fieldX w))
  | 0x55#8 => .ok (.dump (fieldX w))
  | 0x65#8 => .ok (.load (fieldX w))
  | _ => .error (.unknownInstruction w)

/-- Decode one word by the two-level dispatch: the primary opcode selects a family, and no family's handler falls into
another's (30_encoding R73, R74, R79, R85). It sees only the word. -/
def decode (w : Word) : Except Reject Instr :=
  match fieldOp w with
  | 0x0#4 => decodeFamily0 w
  | 0x1#4 => .ok (.jp (fieldNNN w))
  | 0x2#4 => .ok (.call (fieldNNN w))
  | 0x3#4 => .ok (.seImm (fieldX w) (fieldNN w))
  | 0x4#4 => .ok (.sneImm (fieldX w) (fieldNN w))
  | 0x5#4 => .ok (.seReg (fieldX w) (fieldY w) (fieldN w))
  | 0x6#4 => .ok (.ldImm (fieldX w) (fieldNN w))
  | 0x7#4 => .ok (.addImm (fieldX w) (fieldNN w))
  | 0x8#4 => decodeFamily8 w
  | 0x9#4 => .ok (.sneReg (fieldX w) (fieldY w) (fieldN w))
  | 0xA#4 => .ok (.ldI (fieldNNN w))
  | 0xB#4 => .ok (.jpV0 (fieldNNN w))
  | 0xC#4 => .ok (.rnd (fieldX w) (fieldNN w))
  | 0xD#4 => .ok (.drw (fieldX w) (fieldY w) (fieldN w))
  | 0xE#4 => decodeFamilyE w
  | _ => decodeFamilyF w

/-- The word of two bytes, the first at the lower address and the high byte (20_memory R51). -/
def wordOfBytes (hi lo : Byte) : Word := hi ++ lo

/-- Decode the first instruction of a byte list, and the bytes after it. -/
def decodeBytes : List Byte → Except Reject (Instr × List Byte)
  | hi :: lo :: rest =>
    match decode (wordOfBytes hi lo) with
    | .ok i => .ok (i, rest)
    | .error r => .error r
  | _ => .error .tooShort

/-- The instruction word of an instruction, from its row of 30_encoding R76 and the fields of R71. -/
def encode : Instr → Word
  | .cls ign => 0x0#4 ++ ign ++ 0xE0#8
  | .ret ign => 0x0#4 ++ ign ++ 0xEE#8
  | .sys nnn => 0x0#4 ++ nnn
  | .jp nnn => 0x1#4 ++ nnn
  | .call nnn => 0x2#4 ++ nnn
  | .seImm x nn => 0x3#4 ++ x ++ nn
  | .sneImm x nn => 0x4#4 ++ x ++ nn
  | .seReg x y ign => 0x5#4 ++ x ++ y ++ ign
  | .ldImm x nn => 0x6#4 ++ x ++ nn
  | .addImm x nn => 0x7#4 ++ x ++ nn
  | .ldReg x y => 0x8#4 ++ x ++ y ++ 0x0#4
  | .orReg x y => 0x8#4 ++ x ++ y ++ 0x1#4
  | .andReg x y => 0x8#4 ++ x ++ y ++ 0x2#4
  | .xorReg x y => 0x8#4 ++ x ++ y ++ 0x3#4
  | .addReg x y => 0x8#4 ++ x ++ y ++ 0x4#4
  | .subReg x y => 0x8#4 ++ x ++ y ++ 0x5#4
  | .shr x y => 0x8#4 ++ x ++ y ++ 0x6#4
  | .subnReg x y => 0x8#4 ++ x ++ y ++ 0x7#4
  | .shl x y => 0x8#4 ++ x ++ y ++ 0xE#4
  | .sneReg x y ign => 0x9#4 ++ x ++ y ++ ign
  | .ldI nnn => 0xA#4 ++ nnn
  | .jpV0 nnn => 0xB#4 ++ nnn
  | .rnd x nn => 0xC#4 ++ x ++ nn
  | .drw x y n => 0xD#4 ++ x ++ y ++ n
  | .skp x => 0xE#4 ++ x ++ 0x9E#8
  | .sknp x => 0xE#4 ++ x ++ 0xA1#8
  | .ldVxDT x => 0xF#4 ++ x ++ 0x07#8
  | .ldVxK x => 0xF#4 ++ x ++ 0x0A#8
  | .ldDTVx x => 0xF#4 ++ x ++ 0x15#8
  | .ldSTVx x => 0xF#4 ++ x ++ 0x18#8
  | .addI x => 0xF#4 ++ x ++ 0x1E#8
  | .ldF x => 0xF#4 ++ x ++ 0x29#8
  | .ldB x => 0xF#4 ++ x ++ 0x33#8
  | .dump x => 0xF#4 ++ x ++ 0x55#8
  | .load x => 0xF#4 ++ x ++ 0x65#8

/-- The bytes of a word in memory order, high byte first (20_memory R51). -/
def bytesOfWord (w : Word) : List Byte := [w.extractLsb' 8 8, w.extractLsb' 0 8]

/-- The word that the low `nbits` bits of a number give, all bits above them 0. -/
def tableWord (nbits w : Nat) : Word := BitVec.ofNat 16 (w % 2 ^ nbits)

/-- The instruction the decoder reads from a table word laid out as memory holds it. -/
def decodeTableWord (nbits w : Nat) : Option Instr :=
  match decodeBytes (bytesOfWord (tableWord nbits w)) with
  | .ok (i, _) => some i
  | .error _ => none

end Sys2Proof
end

