-- ==== Sys2Proof/Config.lean ====
section
/-! DEFINITION. What an implementation fixes (the named parameters of 00_scope R7) and the free values: opaque constants
that no proof can evaluate. The spec's defaults of the parameters stand in Machine/Params.lean. -/

namespace Sys2Proof

/-- `SHIFT_SOURCE`: which register 8XY6 and 8XYE shift (42_alu R152). -/
inductive ShiftSource where
  /-- shift V[x] in place -/
  | vx
  /-- V[x] receives V[y] shifted -/
  | vy
  deriving DecidableEq, Repr

/-- `FLAG_ORDER`: which of flag and result is written first (42_alu R148). -/
inductive FlagOrder where
  | flagFirst
  | resultFirst
  deriving DecidableEq, Repr

/-- `LOGIC_VF`: what OR, AND and XOR do to VF (42_alu R144). -/
inductive LogicVF where
  | unchanged
  | clear
  deriving DecidableEq, Repr

/-- `MEM_I_INCREMENT`: what FX55 and FX65 leave in I (44_index_memory R197). -/
inductive MemIIncrement where
  | none
  | xPlus1
  deriving DecidableEq, Repr

/-- The 80 font bytes at 0x000 to 0x04F (10_state R29). -/
abbrev Font := Vector Byte 80

/-- The named parameters of 00_scope R7. They are plain data that one machine never changes; a statement over every
state is a statement over every value of each of them (log 4). -/
structure Params where
  shiftSource : ShiftSource
  flagOrder : FlagOrder
  logicVF : LogicVF
  memIIncrement : MemIIncrement
  font : Font
  sysReports : Bool
  deriving DecidableEq, Repr

/-- FREE VALUE, log 5: `SYS_REPORTS` is "OPEN, no default" (00_scope R7). Safe: nothing can be proved of it. -/
opaque Config.sysReports : Bool

/-- FREE VALUE, log 1: the `n`-th sample of the key input, "a free 16-bit input of each step" (93 U13). Safe. -/
opaque Config.freeKeys : Nat → BitVec 16

/-- FREE VALUE, log 1: the `n`-th random draw, "any of the 256 values, chosen afresh each step" (00_scope R8). Safe. -/
opaque Config.freeRnd : Nat → Byte

end Sys2Proof
end

