-- ==== Sys2Proof/Machine/Params.lean ====
section
/-! DEFINITION. The values the spec decides as the defaults of its named parameters (00_scope R7). Only State.reset and
the runs from it take them; a statement over every state covers every value. -/

namespace Sys2Proof.Machine

/-- The glyphs 0 to 7 of the standard font (10_state R29; PRESUMED by the spec itself, log 6). -/
def fontLow : Vector Byte 40 := #v[
  0xF0#8, 0x90#8, 0x90#8, 0x90#8, 0xF0#8,
  0x20#8, 0x60#8, 0x20#8, 0x20#8, 0x70#8,
  0xF0#8, 0x10#8, 0xF0#8, 0x80#8, 0xF0#8,
  0xF0#8, 0x10#8, 0xF0#8, 0x10#8, 0xF0#8,
  0x90#8, 0x90#8, 0xF0#8, 0x10#8, 0x10#8,
  0xF0#8, 0x80#8, 0xF0#8, 0x10#8, 0xF0#8,
  0xF0#8, 0x80#8, 0xF0#8, 0x90#8, 0xF0#8,
  0xF0#8, 0x10#8, 0x20#8, 0x40#8, 0x40#8]

/-- The glyphs 8 to F of the standard font (10_state R29; PRESUMED by the spec itself, log 6). -/
def fontHigh : Vector Byte 40 := #v[
  0xF0#8, 0x90#8, 0xF0#8, 0x90#8, 0xF0#8,
  0xF0#8, 0x90#8, 0xF0#8, 0x10#8, 0xF0#8,
  0xF0#8, 0x90#8, 0xF0#8, 0x90#8, 0x90#8,
  0xE0#8, 0x90#8, 0xE0#8, 0x90#8, 0xE0#8,
  0xF0#8, 0x80#8, 0x80#8, 0x80#8, 0xF0#8,
  0xE0#8, 0x90#8, 0x90#8, 0x90#8, 0xE0#8,
  0xF0#8, 0x80#8, 0xF0#8, 0x80#8, 0xF0#8,
  0xF0#8, 0x80#8, 0xF0#8, 0x80#8, 0x80#8]

/-- The default of `FONT`: glyph `d` at bytes `5d` to `5d + 4` (10_state R29). -/
def defaultFont : Font := fontLow ++ fontHigh

/-- The defaults of 00_scope R7 (DESIGN CHOICE of the spec: D5, D6, D7, D8, D17; log 4). `SYS_REPORTS` has none: it is the
free value `Config.sysReports` (log 5). -/
def defaultParams : Params where
  shiftSource := .vx
  flagOrder := .flagFirst
  logicVF := .unchanged
  memIIncrement := .none
  font := defaultFont
  sysReports := Config.sysReports

end Sys2Proof.Machine
end

