-- ==== Sys2Proof/Machine/State.lean ====
section
/-! DEFINITION. The state of the block (10_state R20), the inputs and the output of its step port (R40 to R45), its
parameters (00_scope R7), and the state right after reset (70_reset R260). Plain data throughout. -/

namespace Sys2Proof.Machine

/-- Why the machine stops with a fault. NO CONSTRUCTOR: "No condition transfers control, saves state, changes mode or stops
the machine" (60_exceptions R230), so nothing raises a fault (log 18). -/
inductive Fault where
  deriving DecidableEq, Repr

/-- Why an instruction has no meaning. -/
inductive Refusal where
  /-- an instruction whose arm in Dispatch.lean gives no meaning yet; no arm raises it. Safe: the machine would stop. -/
  | notModelled (mnemonic : String)
  deriving DecidableEq, Repr

/-- The three kinds of diagnostic event (60_exceptions R231). -/
inductive EventKind where
  /-- a word that decodes as unknown, or SYS if `SYS_REPORTS` (R232, R233) -/
  | unknownInstruction
  /-- CALL with 16 return addresses pushed (R236) -/
  | stackOverflow
  /-- RET with none pushed (R237) -/
  | stackUnderflow
  deriving DecidableEq, Repr

/-- A diagnostic event: its kind, the address `A` of the instruction that raised it and its word `w` (60_exceptions R231). -/
structure Event where
  kind : EventKind
  addr : Word
  word : Word
  deriving DecidableEq, Repr

/-- The framebuffer: 32 rows of 64 cells, on or off (10_state R30). -/
abbrev Framebuffer := Vector (Vector Bool 64) 32

/-- Memory: the bytes that differ from the reset contents, addresses strictly rising (canonical form: Memory.wf in
Machine/Memory.lean; log 7). -/
abbrev Memory := List Host.Cell

/-- The machine. The first block of fields is the spec's state, whole (10_state R20); the second is what the step port
takes in and gives out (10_state R40 to R45), which the form `step : State → Outcome` puts here; the third is fixed for
one machine. -/
structure State where
  /-- general registers V0 to VF (R22); VF is the flag register (R23) -/
  v : Vector Byte 16
  /-- index register I (R25) -/
  i : Word
  /-- program counter PC (R24) -/
  pc : Word
  /-- the 16 return-address slots (R26) -/
  stack : Vector Word 16
  /-- SP, the number of return addresses pushed, 0 to 16 (R27; log 12) -/
  sp : Fin 17
  /-- delay timer DT (R28) -/
  dt : Byte
  /-- sound timer ST (R28) -/
  st : Byte
  /-- framebuffer FB (R30) -/
  fb : Framebuffer
  /-- memory M (R21) -/
  mem : Memory
  /-- MODEL'S OWN: the KEYS input of the next step, bit `k` for key `k` (R41; log 1) -/
  keys : BitVec 16
  /-- MODEL'S OWN: the RND input of the next step (R42; log 1) -/
  rnd : Byte
  /-- MODEL'S OWN: how many samples of the inputs have been drawn (log 1) -/
  inputNo : Nat
  /-- MODEL'S OWN: the events of the last step, its output (R45; log 3) -/
  events : List Event
  /-- the machine's parameters (00_scope R7; log 4) -/
  params : Params
  deriving DecidableEq, Repr

/-- The three outcomes of a step of this machine. -/
abbrev Result := Host.Outcome State Fault Refusal

/-- Every component at its reset value (70_reset R260), for a machine with parameters `p` whose step port holds the inputs
`keys` and `rnd`. Memory lists nothing: an unlisted byte reads as its reset contents (log 7). -/
def State.resetWith (p : Params) (keys : BitVec 16) (rnd : Byte) (inputNo : Nat) : State where
  v := Vector.replicate 16 0x00#8
  i := 0x0000#16
  pc := 0x0200#16
  stack := Vector.replicate 16 0x0000#16
  sp := 0
  dt := 0x00#8
  st := 0x00#8
  fb := Vector.replicate 32 (Vector.replicate 64 false)
  mem := []
  keys := keys
  rnd := rnd
  inputNo := inputNo
  events := []
  params := p

/-- The machine right after reset (70_reset R260): the parameters at the spec's defaults (log 4), and the first step's
inputs free values, since reset "touches no input" (log 2). -/
def State.reset : State :=
  State.resetWith defaultParams (Config.freeKeys 0) (Config.freeRnd 0) 1

end Sys2Proof.Machine
end

