-- ==== Sys2Proof/Machine/Memory.lean ====
section
/-! DEFINITION. Memory as a list of the bytes that differ from the reset contents (10_state R21, 20_memory R50, R52, R56;
log 7). Keys are masked addresses, below 4096. -/

namespace Sys2Proof.Machine

/-- What a byte holds at reset, and so what an unlisted address reads as: the font at 0x000 to 0x04F, zero elsewhere
(20_memory R56, 70_reset R260). -/
def Memory.initial (font : Font) (a : Nat) : Byte :=
  if h : a < 80 then font[a] else 0x00#8

/-- Read the byte at address `a`. -/
def Memory.read (font : Font) : Memory → Nat → Byte
  | [], a => Memory.initial font a
  | c :: m, a => if c.1 = a then c.2 else Memory.read font m a

/-- Unlist address `a`. -/
def Memory.erase : Memory → Nat → Memory
  | [], _ => []
  | c :: m, a => if c.1 = a then Memory.erase m a else c :: Memory.erase m a

/-- List byte `b` at address `a`, in address order. -/
def Memory.insert : Memory → Nat → Byte → Memory
  | [], a, b => [(a, b)]
  | c :: m, a, b => if a < c.1 then (a, b) :: c :: m else c :: Memory.insert m a b

/-- Write byte `b` at address `a`, keeping the canonical form: the reset contents of `a` are never listed. -/
def Memory.write (font : Font) (m : Memory) (a : Nat) (b : Byte) : Memory :=
  if b = Memory.initial font a then Memory.erase m a else Memory.insert (Memory.erase m a) a b

/-- The canonical form: addresses strictly rising and inside the 4096 bytes, no entry equal to what an unlisted address
reads as. -/
abbrev Memory.wf (font : Font) (m : Memory) : Prop :=
  m.Pairwise (fun c d => c.1 < d.1) ∧ ∀ c ∈ m, c.1 < 4096 ∧ c.2 ≠ Memory.initial font c.1

/-- The mask every access applies to its computed address (20_memory R52; log 11). -/
def maskAddr (a : Nat) : Nat := a &&& 0x0FFF

end Sys2Proof.Machine
end

