-- ==== Sys2Proof/Machine/Ops.lean ====
section
/-! DEFINITION. The named operations over the state: registers, memory, framebuffer, call stack, events, and the parts of
the interpreter cycle around an instruction (00_scope R11, 40_cycle R101 to R108). This machine has no trap: `raise`, which
appends an event, is the one operation every error condition goes through (60_exceptions R230, R241). -/

namespace Sys2Proof.Machine

/-- Read general register `V[x]` (00_scope R11). -/
def State.getV (s : State) (x : Nib) : Byte := s.v[x.toNat]'x.isLt

/-- Write general register `V[x]` (00_scope R11). No register is hard-wired (10_state R22). -/
def State.setV (s : State) (x : Nib) (b : Byte) : State := { s with v := s.v.set x.toNat b x.isLt }

/-- Write I. -/
def State.setI (s : State) (a : Word) : State := { s with i := a }

/-- Write PC; no write masks it (10_state R24). -/
def State.setPC (s : State) (a : Word) : State := { s with pc := a }

/-- Write DT. -/
def State.setDT (s : State) (b : Byte) : State := { s with dt := b }

/-- Write ST. -/
def State.setST (s : State) (b : Byte) : State := { s with st := b }

/-- `MemRead(a, 1)`: the byte at `a & 0x0FFF` (00_scope R11, 20_memory R52). -/
def State.readByte (s : State) (a : Nat) : Byte := Memory.read s.params.font s.mem (maskAddr a)

/-- `MemWrite(a, 1, b)`: write the byte at `a & 0x0FFF` (00_scope R11, 20_memory R52, R55). -/
def State.writeByte (s : State) (a : Nat) (b : Byte) : State :=
  { s with mem := Memory.write s.params.font s.mem (maskAddr a) b }

/-- The framebuffer cell in row `y`, column `x` (10_state R30). -/
def Framebuffer.cell (fb : Framebuffer) (y : Fin 32) (x : Fin 64) : Bool := fb[y.val][x.val]

/-- XOR a framebuffer cell with 1 (43_display R172). -/
def Framebuffer.flip (fb : Framebuffer) (y : Fin 32) (x : Fin 64) : Framebuffer :=
  fb.set y.val (fb[y.val].set x.val (!fb.cell y x))

/-- The framebuffer with every cell off (43_display R171). -/
def Framebuffer.blank : Framebuffer := Vector.replicate 32 (Vector.replicate 64 false)

/-- Write the framebuffer. -/
def State.setFB (s : State) (fb : Framebuffer) : State := { s with fb := fb }

/-- The address `A` the instruction was fetched from: PC is `A + 2` while it executes (00_scope R12; log 20). -/
def State.instrAddr (s : State) : Word := s.pc - 2#16

/-- `raise`: append one event to the step's output and change nothing else (00_scope R11, 60_exceptions R230, R231). -/
def State.raise (s : State) (kind : EventKind) (w : Word) : State :=
  { s with events := s.events ++ [⟨kind, s.instrAddr, w⟩] }

/-- Push a return address, or nothing on a full stack (10_state R27, 60_exceptions R236). -/
def State.push (s : State) (a : Word) : Option State :=
  if h : s.sp.val < 16 then
    some { s with stack := s.stack.set s.sp.val a h, sp := ⟨s.sp.val + 1, by omega⟩ }
  else none

/-- Pop a return address, or nothing from an empty stack; the slot keeps its value (10_state R27, 60_exceptions R237). -/
def State.pop (s : State) : Option (Word × State) :=
  if h : s.sp.val = 0 then none
  else some (s.stack[s.sp.val - 1]'(by omega), { s with sp := ⟨s.sp.val - 1, by omega⟩ })

/-- Skip the next instruction when the condition holds: `PC <- (PC + 2) mod 2^16` (41_control_flow R125). -/
def State.skipIf (s : State) (c : Bool) : State := if c then s.setPC (s.pc + 2#16) else s

/-- Fetch: the two bytes at PC and PC + 1, big-endian, the addresses masked (40_cycle R101, 20_memory R51, R52). -/
def State.fetchWord (s : State) : Word := wordOfBytes (s.readByte s.pc.toNat) (s.readByte (s.pc.toNat + 1))

/-- Place a word where the next fetch reads it. -/
def State.placeWord (s : State) (w : Word) : State :=
  (s.writeByte s.pc.toNat (w.extractLsb' 8 8)).writeByte (s.pc.toNat + 1) (w.extractLsb' 0 8)

/-- The start of a cycle: no event yet, and PC advanced by 2 before execution (40_cycle R102, R107). -/
def State.beginCycle (s : State) : State := { s with pc := s.pc + 2#16, events := [] }

/-- A timer after one tick: never below zero (40_cycle R106). -/
def tickTimer (b : Byte) : Byte := if b = 0#8 then b else b - 1#8

/-- The tick of both timers, after execution (40_cycle R106). -/
def State.tick (s : State) : State := { s with dt := tickTimer s.dt, st := tickTimer s.st }

/-- The next step's inputs: KEYS and RND are each sampled afresh once per step, with no law on their values
(00_scope R8, 40_cycle R108; FREE VALUES, log 1). -/
def State.sampleInputs (s : State) : State :=
  { s with keys := Config.freeKeys s.inputNo, rnd := Config.freeRnd s.inputNo, inputNo := s.inputNo + 1 }

/-- The end of a cycle: the tick, and then the inputs of the step to come (40_cycle R106, R108). -/
def State.endCycle (s : State) : State := s.tick.sampleInputs

/-- An unknown word: nothing but its event, PC keeping the value of the advance (40_cycle R105, 60_exceptions R232). -/
def execUnknown (w : Word) (s : State) : Result := .next (s.raise .unknownInstruction w)

/-- Continue with the next state, or stop where the outcome stops. -/
def andThen (o : Result) (f : State → State) : Result :=
  match o with
  | .next s => .next (f s)
  | .fault r => .fault r
  | .refused r => .refused r

end Sys2Proof.Machine
end

