-- ==== Sys2Proof/Machine/Operands.lean ====
section
/-! DEFINITION. Every operand form of the instruction set: immediates (30_encoding R72), memory at I plus an offset
(44_index_memory R190), the shift source (42_alu R152), the key index and key search (45_timers_keys R211, R217), the sprite
coordinates (43_display R172) and the decimal digits (44_index_memory R194). -/

namespace Sys2Proof.Machine

/-- `zext_16` of an address field (30_encoding R72). -/
def zextAddr (nnn : Addr) : Word := nnn.setWidth 16

/-- `zext_16` of a byte (00_scope R10). -/
def zextByte (b : Byte) : Word := b.setWidth 16

/-- The address `I + k`, computed unmasked; the access masks it (44_index_memory R190, 20_memory R52). -/
def State.indexAddr (s : State) (k : Nat) : Nat := s.i.toNat + k

/-- The value a shift reads, by `SHIFT_SOURCE` (42_alu R152). -/
def State.shiftOperand (s : State) (x y : Nib) : Byte :=
  match s.params.shiftSource with
  | .vx => s.getV x
  | .vy => s.getV y

/-- The key index held in a register: its low nibble (45_timers_keys R211; the spec's decision D11, log 14). -/
def State.keyIndex (s : State) (x : Nib) : Nat := (s.getV x &&& 0x0F#8).toNat

/-- Is key `k` pressed in this step's input (10_state R41)? -/
def State.keyDown (s : State) (k : Nat) : Bool := s.keys.getLsbD k

/-- The lowest-numbered key that is down (45_timers_keys R217; the spec's decision D12, log 14). -/
def State.lowestKey (s : State) : Option Nat := (List.range 16).find? s.keyDown

/-- The start column of a sprite, `V[x] mod 64` (43_display R172). -/
def State.spriteCol (s : State) (x : Nib) : Nat := (s.getV x).toNat % 64

/-- The start row of a sprite, `V[y] mod 32` (43_display R172). -/
def State.spriteRow (s : State) (y : Nib) : Nat := (s.getV y).toNat % 32

/-- The hundreds digit (44_index_memory R194). -/
def bcdHundreds (b : Byte) : Byte := b / 100#8

/-- The tens digit (44_index_memory R194). -/
def bcdTens (b : Byte) : Byte := (b / 10#8) % 10#8

/-- The ones digit (44_index_memory R194). -/
def bcdOnes (b : Byte) : Byte := b % 10#8

end Sys2Proof.Machine
end

