-- ==== Sys2Proof/Machine/Flags.lean ====
section
/-! DEFINITION. Every flag computation: VF is the only flag (10_state R23). -/

namespace Sys2Proof.Machine

/-- VF, the flag register, is general register 15 (10_state R23). -/
def regVF : Nib := 0xF#4

/-- A flag value as a byte: 1 or 0. -/
def flagByte (f : Bool) : Byte := if f then 1#8 else 0#8

/-- `WriteFlagged(f, r)`: result and flag, in the order `FLAG_ORDER` names (42_alu R148). -/
def State.writeFlagged (s : State) (x : Nib) (f : Bool) (r : Byte) : State :=
  match s.params.flagOrder with
  | .flagFirst => (s.setV regVF (flagByte f)).setV x r
  | .resultFirst => (s.setV x r).setV regVF (flagByte f)

/-- The result of OR, AND or XOR, and VF after it by `LOGIC_VF` (42_alu R144). -/
def State.writeLogic (s : State) (x : Nib) (r : Byte) : State :=
  match s.params.logicVF with
  | .unchanged => s.setV x r
  | .clear => (s.setV x r).setV regVF 0#8

/-- The carry of 8XY4: the unsigned sum exceeds 255 (42_alu R149). -/
def addCarry (a b : Byte) : Bool := decide (a.toNat + b.toNat > 255)

/-- The flag of 8XY5 and, with its operands swapped, of 8XY7: strictly greater (42_alu R150, R151, 90_conflicts C10;
log 23). -/
def subFlag (a b : Byte) : Bool := decide (a.toNat > b.toNat)

/-- The bit 8XY6 shifts out: bit 0 (42_alu R153). -/
def shrFlag (b : Byte) : Bool := b.getLsbD 0

/-- The bit 8XYE shifts out: bit 7 (42_alu R154). -/
def shlFlag (b : Byte) : Bool := b.getLsbD 7

end Sys2Proof.Machine
end

