-- ==== Sys2Proof/Machine/Alu.lean ====
section
/-! DEFINITION. Register loads, ALU and random (42_alu R140 to R156). Operands are sampled before any write (R148,
log 23). -/

namespace Sys2Proof.Machine

/-- LD Vx, nn (42_alu R141). -/
def execLdImm (x : Nib) (nn : Byte) (s : State) : Result := .next (s.setV x nn)

/-- ADD Vx, nn: modulo 256, no flag (42_alu R142). -/
def execAddImm (x : Nib) (nn : Byte) (s : State) : Result := .next (s.setV x (s.getV x + nn))

/-- LD Vx, Vy (42_alu R143). -/
def execLdReg (x y : Nib) (s : State) : Result := .next (s.setV x (s.getV y))

/-- OR Vx, Vy (42_alu R144, R145). -/
def execOrReg (x y : Nib) (s : State) : Result := .next (s.writeLogic x (s.getV x ||| s.getV y))

/-- AND Vx, Vy (42_alu R144, R146). -/
def execAndReg (x y : Nib) (s : State) : Result := .next (s.writeLogic x (s.getV x &&& s.getV y))

/-- XOR Vx, Vy (42_alu R144, R147). -/
def execXorReg (x y : Nib) (s : State) : Result := .next (s.writeLogic x (s.getV x ^^^ s.getV y))

/-- ADD Vx, Vy (42_alu R148, R149). -/
def execAddReg (x y : Nib) (s : State) : Result :=
  .next (s.writeFlagged x (addCarry (s.getV x) (s.getV y)) (s.getV x + s.getV y))

/-- SUB Vx, Vy (42_alu R148, R150). -/
def execSubReg (x y : Nib) (s : State) : Result :=
  .next (s.writeFlagged x (subFlag (s.getV x) (s.getV y)) (s.getV x - s.getV y))

/-- SHR Vx {, Vy} (42_alu R148, R152, R153). -/
def execShr (x y : Nib) (s : State) : Result :=
  .next (s.writeFlagged x (shrFlag (s.shiftOperand x y)) (s.shiftOperand x y >>> 1))

/-- SUBN Vx, Vy (42_alu R148, R151). -/
def execSubnReg (x y : Nib) (s : State) : Result :=
  .next (s.writeFlagged x (subFlag (s.getV y) (s.getV x)) (s.getV y - s.getV x))

/-- SHL Vx {, Vy} (42_alu R148, R152, R154). -/
def execShl (x y : Nib) (s : State) : Result :=
  .next (s.writeFlagged x (shlFlag (s.shiftOperand x y)) (s.shiftOperand x y <<< 1))

/-- RND Vx, nn: the step's draw AND the immediate (42_alu R155). -/
def execRnd (x : Nib) (nn : Byte) (s : State) : Result := .next (s.setV x (s.rnd &&& nn))

end Sys2Proof.Machine
end

