-- ==== Sys2Proof/Machine/ControlFlow.lean ====
section
/-! DEFINITION. Control transfer (41_control_flow R120 to R130): PC on entry is A + 2, its arithmetic modulo 2^16, its
targets unmasked and of any parity. -/

namespace Sys2Proof.Machine

/-- RET: on an empty stack only the event (41_control_flow R121, 60_exceptions R237; the spec's decision D14, log 13). -/
def execRet (ign : Nib) (s : State) : Result :=
  .next (match s.pop with
    | none => s.raise .stackUnderflow (encode (.ret ign))
    | some (a, t) => t.setPC a)

/-- SYS nnn: no effect but, where the machine reports it, an event (41_control_flow R122, 60_exceptions R233). -/
def execSys (nnn : Addr) (s : State) : Result :=
  .next (if s.params.sysReports then s.raise .unknownInstruction (encode (.sys nnn)) else s)

/-- JP nnn (41_control_flow R123). -/
def execJp (nnn : Addr) (s : State) : Result := .next (s.setPC (zextAddr nnn))

/-- CALL nnn: on a full stack neither push nor jump (41_control_flow R124, 60_exceptions R236; the spec's decision D13, log 13). -/
def execCall (nnn : Addr) (s : State) : Result :=
  .next (match s.push s.pc with
    | none => s.raise .stackOverflow (encode (.call nnn))
    | some t => t.setPC (zextAddr nnn))

/-- SE Vx, nn (41_control_flow R125). -/
def execSeImm (x : Nib) (nn : Byte) (s : State) : Result := .next (s.skipIf (s.getV x == nn))

/-- SNE Vx, nn (41_control_flow R126). -/
def execSneImm (x : Nib) (nn : Byte) (s : State) : Result := .next (s.skipIf (s.getV x != nn))

/-- SE Vx, Vy (41_control_flow R127). -/
def execSeReg (x y : Nib) (s : State) : Result := .next (s.skipIf (s.getV x == s.getV y))

/-- SNE Vx, Vy (41_control_flow R128). -/
def execSneReg (x y : Nib) (s : State) : Result := .next (s.skipIf (s.getV x != s.getV y))

/-- JP V0, nnn: the sum is kept unmasked (41_control_flow R129). -/
def execJpV0 (nnn : Addr) (s : State) : Result := .next (s.setPC (zextByte (s.getV 0x0#4) + zextAddr nnn))

end Sys2Proof.Machine
end

