-- ==== Sys2Proof/Machine/Display.lean ====
section
/-! DEFINITION. The two operations that write the framebuffer (43_display R170 to R175). -/

namespace Sys2Proof.Machine

/-- CLS (43_display R171). -/
def execCls (s : State) : Result := .next (s.setFB Framebuffer.blank)

/-- A framebuffer under a draw, and whether an on pixel has gone off so far (43_display R172, R174). -/
abbrev Canvas := Framebuffer × Bool

/-- One sprite bit at row `yy` and unreduced column `xx`: a column past 63 is dropped, a 0 bit changes nothing
(43_display R172, R173). -/
def drawBit (cv : Canvas) (yy : Fin 32) (xx : Nat) (bit : Bool) : Canvas :=
  if h : xx < 64 then
    if bit then (cv.1.flip yy ⟨xx, h⟩, cv.2 || cv.1.cell yy ⟨xx, h⟩) else cv
  else cv

/-- The eight bits of one sprite row, most significant first (43_display R172). -/
def drawRow (cv : Canvas) (yy : Fin 32) (x0 : Nat) (row : Byte) : Canvas :=
  (List.range 8).foldl (fun cv c => drawBit cv yy (x0 + c) (row.getLsbD (7 - c))) cv

/-- The screen row of sprite row `r`: vertical wraparound (43_display R172, R173). -/
def wrapRow (y0 r : Nat) : Fin 32 := ⟨(y0 + r) % 32, Nat.mod_lt _ (by decide)⟩

/-- The `n` rows of the sprite at I, from start row `y0` and start column `x0` (43_display R172). -/
def State.drawSprite (s : State) (y0 x0 n : Nat) : Canvas :=
  (List.range n).foldl (fun cv r => drawRow cv (wrapRow y0 r) x0 (s.readByte (s.indexAddr r))) (s.fb, false)

/-- DRW Vx, Vy, n: coordinates and I are sampled first; VF is 0 unless a pixel went off (43_display R172, R174, R175;
the spec's decision D22, log 15). -/
def execDrw (x y n : Nib) (s : State) : Result :=
  .next ((s.setFB (s.drawSprite (s.spriteRow y) (s.spriteCol x) n.toNat).1).setV regVF
    (flagByte (s.drawSprite (s.spriteRow y) (s.spriteCol x) n.toNat).2))

end Sys2Proof.Machine
end

