-- ==== Sys2Proof/Machine/IndexMemory.lean ====
section
/-! DEFINITION. The index register and memory transfer (44_index_memory R190 to R197). -/

namespace Sys2Proof.Machine

/-- LD I, nnn (44_index_memory R191). -/
def execLdI (nnn : Addr) (s : State) : Result := .next (s.setI (zextAddr nnn))

/-- ADD I, Vx: modulo 2^16, no flag (44_index_memory R192; the spec's decision D29, log 17). -/
def execAddI (x : Nib) (s : State) : Result := .next (s.setI (s.i + zextByte (s.getV x)))

/-- LD F, Vx: the whole byte is multiplied (44_index_memory R193). -/
def execLdF (x : Nib) (s : State) : Result := .next (s.setI (5#16 * zextByte (s.getV x)))

/-- LD B, Vx: three digits at I, I + 1 and I + 2 (44_index_memory R194). -/
def execLdB (x : Nib) (s : State) : Result :=
  .next (((s.writeByte (s.indexAddr 0) (bcdHundreds (s.getV x))).writeByte (s.indexAddr 1) (bcdTens (s.getV x))).writeByte
    (s.indexAddr 2) (bcdOnes (s.getV x)))

/-- Store `V[0]` to `V[n - 1]` from I on, in ascending order (44_index_memory R195, 20_memory R54). -/
def State.storeRegs (s : State) (n : Nat) : State :=
  (List.range n).foldl (fun t k => t.writeByte (s.indexAddr k) (s.getV (BitVec.ofNat 4 k))) s

/-- Load `V[0]` to `V[n - 1]` from I on, in ascending order (44_index_memory R196, 20_memory R54). -/
def State.loadRegs (s : State) (n : Nat) : State :=
  (List.range n).foldl (fun t k => t.setV (BitVec.ofNat 4 k) (s.readByte (s.indexAddr k))) s

/-- I after FX55 or FX65, by `MEM_I_INCREMENT` (44_index_memory R197). -/
def State.bumpI (s : State) (x : Nib) : State :=
  match s.params.memIIncrement with
  | .none => s
  | .xPlus1 => s.setI (s.i + x.setWidth 16 + 1#16)

/-- LD [I], Vx: the registers V0 to Vx inclusive to memory (44_index_memory R195, R197). -/
def execDump (x : Nib) (s : State) : Result := .next ((s.storeRegs (x.toNat + 1)).bumpI x)

/-- LD Vx, [I]: the registers V0 to Vx inclusive from memory (44_index_memory R196, R197). -/
def execLoad (x : Nib) (s : State) : Result := .next ((s.loadRegs (x.toNat + 1)).bumpI x)

end Sys2Proof.Machine
end

