-- ==== Sys2Proof/Machine/TimersKeys.lean ====
section
/-! DEFINITION. Timers and keys (45_timers_keys R210 to R218). The tick is the cycle's (40_cycle R106). -/

namespace Sys2Proof.Machine

/-- SKP Vx: the key's level, not a press (45_timers_keys R211, R212). -/
def execSkp (x : Nib) (s : State) : Result := .next (s.skipIf (s.keyDown (s.keyIndex x)))

/-- SKNP Vx (45_timers_keys R211, R213). -/
def execSknp (x : Nib) (s : State) : Result := .next (s.skipIf (!s.keyDown (s.keyIndex x)))

/-- LD Vx, DT: DT before this step's tick (45_timers_keys R214). -/
def execLdVxDT (x : Nib) (s : State) : Result := .next (s.setV x s.dt)

/-- LD Vx, K: the lowest key down, or PC back to the same word (45_timers_keys R217, R218). -/
def execLdVxK (x : Nib) (s : State) : Result :=
  .next (match s.lowestKey with
    | some k => s.setV x (BitVec.ofNat 8 k)
    | none => s.setPC (s.pc - 2#16))

/-- LD DT, Vx (45_timers_keys R215). -/
def execLdDTVx (x : Nib) (s : State) : Result := .next (s.setDT (s.getV x))

/-- LD ST, Vx (45_timers_keys R216). -/
def execLdSTVx (x : Nib) (s : State) : Result := .next (s.setST (s.getV x))

end Sys2Proof.Machine
end

