-- ==== Sys2Proof/Machine/Cycle.lean ====
section
/-! DEFINITION. The interpreter cycle: fetch, advance, decode, execute, tick (40_cycle R100 to R109). -/

namespace Sys2Proof.Machine

/-- Decode and execute a fetched word: one of the 35 operations, or an unknown word (40_cycle R103 to R105). -/
def executeWord (w : Word) (s : State) : Result :=
  match decode w with
  | .ok i => exec i s
  | .error _ => execUnknown w s

/-- One cycle: the word is fetched before the advance, and both timers tick after execution (40_cycle R107). -/
def cycle (s : State) : Result := andThen (executeWord s.fetchWord s.beginCycle) State.endCycle

end Sys2Proof.Machine
end

