-- ==== Sys2Proof/Machine/Step.lean ====
section
/-! DEFINITION. The step of the machine, and the placing of a word for the next step to run. -/

namespace Sys2Proof.Machine

/-- One call of the step port: exactly one cycle (40_cycle R100). -/
def step (s : State) : Host.Outcome State Fault Refusal := cycle s

/-- The state with the instruction of a table word stored at PC, where the next step fetches it (log 8). -/
def State.withFetchWord (s : State) (nbits w : Nat) : State := s.placeWord (tableWord nbits w)

end Sys2Proof.Machine
end

