-- ==== Sys2Proof/Machine/Assembly.lean ====
section
/-! DEFINITION. The notation of 30_encoding R83 for instructions, as data: a mnemonic and its operands (the spec's decision
D27, log 26). "Nothing in the block depends on it": no step reads this file. -/

namespace Sys2Proof.Machine

/-- The mnemonics of 30_encoding R76. -/
inductive Mnemonic where
  | cls | ret | sys | jp | call | se | sne | ld | add | or | and | xor | sub | shr | subn | shl | rnd | drw | skp | sknp
  deriving DecidableEq, Repr

/-- An operand of 30_encoding R83. A number is its value; a label stands for its address. -/
inductive AsmOperand where
  /-- `V0` to `VF` -/
  | reg (x : Nib)
  /-- an 8-bit number -/
  | byte (nn : Byte)
  /-- a 12-bit address -/
  | addr (nnn : Addr)
  /-- the row count of DRW -/
  | count (n : Nib)
  /-- the index register -/
  | i
  /-- `[I]`, memory at I -/
  | atI
  /-- the keywords that select FX forms -/
  | dt | st | k | f | b
  deriving DecidableEq, Repr

/-- One line of a program, without its label. -/
structure AsmLine where
  mnemonic : Mnemonic
  operands : List AsmOperand
  deriving DecidableEq, Repr

/-- The line of an instruction, from the mnemonic column of 30_encoding R76. An ignored nibble is not written. -/
def asmOf : Instr → AsmLine
  | .cls _ => ⟨.cls, []⟩
  | .ret _ => ⟨.ret, []⟩
  | .sys nnn => ⟨.sys, [.addr nnn]⟩
  | .jp nnn => ⟨.jp, [.addr nnn]⟩
  | .call nnn => ⟨.call, [.addr nnn]⟩
  | .seImm x nn => ⟨.se, [.reg x, .byte nn]⟩
  | .sneImm x nn => ⟨.sne, [.reg x, .byte nn]⟩
  | .seReg x y _ => ⟨.se, [.reg x, .reg y]⟩
  | .ldImm x nn => ⟨.ld, [.reg x, .byte nn]⟩
  | .addImm x nn => ⟨.add, [.reg x, .byte nn]⟩
  | .ldReg x y => ⟨.ld, [.reg x, .reg y]⟩
  | .orReg x y => ⟨.or, [.reg x, .reg y]⟩
  | .andReg x y => ⟨.and, [.reg x, .reg y]⟩
  | .xorReg x y => ⟨.xor, [.reg x, .reg y]⟩
  | .addReg x y => ⟨.add, [.reg x, .reg y]⟩
  | .subReg x y => ⟨.sub, [.reg x, .reg y]⟩
  | .shr x y => ⟨.shr, [.reg x, .reg y]⟩
  | .subnReg x y => ⟨.subn, [.reg x, .reg y]⟩
  | .shl x y => ⟨.shl, [.reg x, .reg y]⟩
  | .sneReg x y _ => ⟨.sne, [.reg x, .reg y]⟩
  | .ldI nnn => ⟨.ld, [.i, .addr nnn]⟩
  | .jpV0 nnn => ⟨.jp, [.reg 0, .addr nnn]⟩
  | .rnd x nn => ⟨.rnd, [.reg x, .byte nn]⟩
  | .drw x y n => ⟨.drw, [.reg x, .reg y, .count n]⟩
  | .skp x => ⟨.skp, [.reg x]⟩
  | .sknp x => ⟨.sknp, [.reg x]⟩
  | .ldVxDT x => ⟨.ld, [.reg x, .dt]⟩
  | .ldVxK x => ⟨.ld, [.reg x, .k]⟩
  | .ldDTVx x => ⟨.ld, [.dt, .reg x]⟩
  | .ldSTVx x => ⟨.ld, [.st, .reg x]⟩
  | .addI x => ⟨.add, [.i, .reg x]⟩
  | .ldF x => ⟨.ld, [.f, .reg x]⟩
  | .ldB x => ⟨.ld, [.b, .reg x]⟩
  | .dump x => ⟨.ld, [.atI, .reg x]⟩
  | .load x => ⟨.ld, [.reg x, .atI]⟩

/-- `LD` by its operands (30_encoding R76). -/
def assembleLd : List AsmOperand → Option Instr
  | [.reg x, .byte nn] => some (.ldImm x nn)
  | [.reg x, .reg y] => some (.ldReg x y)
  | [.i, .addr nnn] => some (.ldI nnn)
  | [.reg x, .dt] => some (.ldVxDT x)
  | [.reg x, .k] => some (.ldVxK x)
  | [.dt, .reg x] => some (.ldDTVx x)
  | [.st, .reg x] => some (.ldSTVx x)
  | [.f, .reg x] => some (.ldF x)
  | [.b, .reg x] => some (.ldB x)
  | [.atI, .reg x] => some (.dump x)
  | [.reg x, .atI] => some (.load x)
  | _ => none

/-- The row a line stands for, at most one (30_encoding R84). An ignored nibble is written as 0, and so is the operand `Vy`
of a shift when it is omitted (R83). -/
def assemble (l : AsmLine) : Option Instr :=
  match l.mnemonic, l.operands with
  | .cls, [] => some (.cls 0)
  | .ret, [] => some (.ret 0)
  | .sys, [.addr nnn] => some (.sys nnn)
  | .jp, [.addr nnn] => some (.jp nnn)
  | .jp, [.reg x, .addr nnn] => if x = 0x0#4 then some (.jpV0 nnn) else none
  | .call, [.addr nnn] => some (.call nnn)
  | .se, [.reg x, .byte nn] => some (.seImm x nn)
  | .se, [.reg x, .reg y] => some (.seReg x y 0)
  | .sne, [.reg x, .byte nn] => some (.sneImm x nn)
  | .sne, [.reg x, .reg y] => some (.sneReg x y 0)
  | .ld, ops => assembleLd ops
  | .add, [.reg x, .byte nn] => some (.addImm x nn)
  | .add, [.reg x, .reg y] => some (.addReg x y)
  | .add, [.i, .reg x] => some (.addI x)
  | .or, [.reg x, .reg y] => some (.orReg x y)
  | .and, [.reg x, .reg y] => some (.andReg x y)
  | .xor, [.reg x, .reg y] => some (.xorReg x y)
  | .sub, [.reg x, .reg y] => some (.subReg x y)
  | .shr, [.reg x] => some (.shr x 0)
  | .shr, [.reg x, .reg y] => some (.shr x y)
  | .subn, [.reg x, .reg y] => some (.subnReg x y)
  | .shl, [.reg x] => some (.shl x 0)
  | .shl, [.reg x, .reg y] => some (.shl x y)
  | .rnd, [.reg x, .byte nn] => some (.rnd x nn)
  | .drw, [.reg x, .reg y, .count n] => some (.drw x y n)
  | .skp, [.reg x] => some (.skp x)
  | .sknp, [.reg x] => some (.sknp x)
  | _, _ => none

/-- The bytes of a program, its words in order; none if a line is no form of 30_encoding R76. -/
def assembleProgram : List AsmLine → Option (List Byte)
  | [] => some []
  | l :: rest =>
    match assemble l, assembleProgram rest with
    | some i, some bs => some (bytesOfWord (encode i) ++ bs)
    | _, _ => none

end Sys2Proof.Machine
end

