-- ==== Sys2Proof/Machine/Ports.lean ====
section
/-! DEFINITION. The ports through which the host meets the block (10_state R40 to R45, 60_exceptions R250): step with its
inputs, reset, program load, framebuffer read and sound. The events of a step are `State.events` after it. -/

namespace Sys2Proof.Machine

/-- The host's inputs of the next step (10_state R41, R42). -/
def State.withInputs (s : State) (keys : BitVec 16) (rnd : Byte) : State := { s with keys := keys, rnd := rnd }

/-- `Step(S, KEYS, RND)` of 40_cycle R107: the new state, its events in `State.events`. -/
def stepWith (s : State) (keys : BitVec 16) (rnd : Byte) : Result := step (s.withInputs keys rnd)

/-- The reset port: every component of the state at its reset value; the inputs and the machine's parameters are not the
reset's to change (70_reset R260). -/
def State.hostReset (s : State) : State := State.resetWith s.params s.keys s.rnd s.inputNo

/-- The base address of a program (00_scope R6). -/
def programBase : Nat := 0x200

/-- The longest program: 0xFFF - 0x200 + 1 bytes (00_scope R6). -/
def maxProgram : Nat := 3584

/-- What the load port answers (70_reset R263, R264). -/
inductive LoadResult where
  | ok
  /-- the image is longer than 3584 bytes (60_exceptions R235) -/
  | capacityError
  deriving DecidableEq, Repr

/-- Store the bytes of an image from address `a` on. -/
def State.placeBytes (s : State) (a : Nat) : List Byte → State
  | [] => s
  | b :: rest => (s.writeByte a b).placeBytes (a + 1) rest

/-- The load port: reset and then copy, or reject the whole image and change nothing (70_reset R263, R264; log 16). -/
def State.load (s : State) (image : List Byte) : LoadResult × State :=
  if image.length ≤ maxProgram then (.ok, s.hostReset.placeBytes programBase image) else (.capacityError, s)

/-- Bit `k` of the framebuffer port, row-major: `FB[k / 64][k % 64]` (10_state R43). -/
def Framebuffer.portBit (fb : Framebuffer) (k : Nat) : Bool :=
  fb.cell ⟨k / 64 % 32, Nat.mod_lt _ (by decide)⟩ ⟨k % 64, Nat.mod_lt _ (by decide)⟩

/-- The 2048-bit framebuffer read port (10_state R43). -/
def State.fbPort (s : State) : BitVec 2048 := BitVec.ofFnLE fun k : Fin 2048 => s.fb.portBit k.val

/-- The sound port: on while ST is nonzero, read after a step's tick (10_state R44). -/
def State.sound (s : State) : Bool := s.st != 0#8

/-- The numeric code of an event kind (60_exceptions R231; the spec's own codes, D18, log 19). -/
def eventCode : EventKind → Nat
  | .unknownInstruction => 1
  | .stackOverflow => 2
  | .stackUnderflow => 3

end Sys2Proof.Machine
end

