-- ==== Sys2Proof/Safety.lean ====
section
/-! DEFINITION. The terms the statements use: the parts of the state and what an instruction leaves unchanged, the invariant
of a step, the opcode map as a table, the cells a sprite covers, and which states a program cannot tell apart. -/

namespace Sys2Proof.Machine

/-- The parts of State (10_state R20, and the ports and parameters of INVENTORY.md). -/
inductive Part where
  | v | i | pc | stack | sp | dt | st | fb | mem | keys | rnd | inputNo | events | params
  deriving DecidableEq, Repr

/-- A part reads the same in two states: registers, cells, slots and bytes one by one. -/
def Part.same (s t : State) : Part → Prop
  | .v => ∀ r, t.getV r = s.getV r
  | .i => t.i = s.i
  | .pc => t.pc = s.pc
  | .stack => ∀ k : Fin 16, t.stack[k.val] = s.stack[k.val]
  | .sp => t.sp = s.sp
  | .dt => t.dt = s.dt
  | .st => t.st = s.st
  | .fb => ∀ y x, t.fb.cell y x = s.fb.cell y x
  | .mem => ∀ a, t.readByte a = s.readByte a
  | .keys => t.keys = s.keys
  | .rnd => t.rnd = s.rnd
  | .inputNo => t.inputNo = s.inputNo
  | .events => t.events = s.events
  | .params => t.params = s.params

/-- The frame: every part but those listed reads the same. -/
def Unchanged (but : List Part) (s t : State) : Prop := ∀ p, p ∉ but → p.same s t

/-- Every general register but those listed reads the same. -/
def RegsSame (but : List Nib) (s t : State) : Prop := ∀ r, r ∉ but → t.getV r = s.getV r

/-- Every byte whose masked address is not listed reads the same (20_memory R52). -/
def BytesSame (but : List Nat) (s t : State) : Prop := ∀ a, maskAddr a ∉ but → t.readByte a = s.readByte a

/-- The addresses of `n` bytes at I, each masked (44_index_memory R190). -/
def State.window (s : State) (n : Nat) : List Nat := (List.range n).map fun k => maskAddr (s.indexAddr k)

/-- The invariant of a step: memory is canonical, and the step port shows at most one event (60_exceptions R240). -/
def State.Inv (s : State) : Prop := Memory.wf s.params.font s.mem ∧ s.events.length ≤ 1

/-- One row of the opcode map: the instruction of a word whose masked bits are those of the row (30_encoding R76). -/
structure OpcodeRow where
  pattern : Word
  mask : Word
  make : Word → Instr

/-- The opcode map of 30_encoding R76, row by row in its order, with the fields of R71. -/
def opcodeMap : List OpcodeRow := [
  ⟨0x00E0, 0xF0FF, fun w => .cls (fieldX w)⟩,
  ⟨0x00EE, 0xF0FF, fun w => .ret (fieldX w)⟩,
  ⟨0x0000, 0xF000, fun w => .sys (fieldNNN w)⟩,
  ⟨0x1000, 0xF000, fun w => .jp (fieldNNN w)⟩,
  ⟨0x2000, 0xF000, fun w => .call (fieldNNN w)⟩,
  ⟨0x3000, 0xF000, fun w => .seImm (fieldX w) (fieldNN w)⟩,
  ⟨0x4000, 0xF000, fun w => .sneImm (fieldX w) (fieldNN w)⟩,
  ⟨0x5000, 0xF000, fun w => .seReg (fieldX w) (fieldY w) (fieldN w)⟩,
  ⟨0x6000, 0xF000, fun w => .ldImm (fieldX w) (fieldNN w)⟩,
  ⟨0x7000, 0xF000, fun w => .addImm (fieldX w) (fieldNN w)⟩,
  ⟨0x8000, 0xF00F, fun w => .ldReg (fieldX w) (fieldY w)⟩,
  ⟨0x8001, 0xF00F, fun w => .orReg (fieldX w) (fieldY w)⟩,
  ⟨0x8002, 0xF00F, fun w => .andReg (fieldX w) (fieldY w)⟩,
  ⟨0x8003, 0xF00F, fun w => .xorReg (fieldX w) (fieldY w)⟩,
  ⟨0x8004, 0xF00F, fun w => .addReg (fieldX w) (fieldY w)⟩,
  ⟨0x8005, 0xF00F, fun w => .subReg (fieldX w) (fieldY w)⟩,
  ⟨0x8006, 0xF00F, fun w => .shr (fieldX w) (fieldY w)⟩,
  ⟨0x8007, 0xF00F, fun w => .subnReg (fieldX w) (fieldY w)⟩,
  ⟨0x800E, 0xF00F, fun w => .shl (fieldX w) (fieldY w)⟩,
  ⟨0x9000, 0xF000, fun w => .sneReg (fieldX w) (fieldY w) (fieldN w)⟩] ++ [
  ⟨0xA000, 0xF000, fun w => .ldI (fieldNNN w)⟩,
  ⟨0xB000, 0xF000, fun w => .jpV0 (fieldNNN w)⟩,
  ⟨0xC000, 0xF000, fun w => .rnd (fieldX w) (fieldNN w)⟩,
  ⟨0xD000, 0xF000, fun w => .drw (fieldX w) (fieldY w) (fieldN w)⟩,
  ⟨0xE09E, 0xF0FF, fun w => .skp (fieldX w)⟩,
  ⟨0xE0A1, 0xF0FF, fun w => .sknp (fieldX w)⟩,
  ⟨0xF007, 0xF0FF, fun w => .ldVxDT (fieldX w)⟩,
  ⟨0xF00A, 0xF0FF, fun w => .ldVxK (fieldX w)⟩,
  ⟨0xF015, 0xF0FF, fun w => .ldDTVx (fieldX w)⟩,
  ⟨0xF018, 0xF0FF, fun w => .ldSTVx (fieldX w)⟩,
  ⟨0xF01E, 0xF0FF, fun w => .addI (fieldX w)⟩,
  ⟨0xF029, 0xF0FF, fun w => .ldF (fieldX w)⟩,
  ⟨0xF033, 0xF0FF, fun w => .ldB (fieldX w)⟩,
  ⟨0xF055, 0xF0FF, fun w => .dump (fieldX w)⟩,
  ⟨0xF065, 0xF0FF, fun w => .load (fieldX w)⟩]

/-- Decoding by the map: the first row, in table order, that matches (30_encoding R76). -/
def firstRow (w : Word) : Option OpcodeRow := opcodeMap.find? fun r => w &&& r.mask == r.pattern

/-- The cell in row `yy`, column `xx` is under a 1 bit of the `n`-row sprite at I drawn from column `x0`, row `y0`: some
row `r` of it falls on row `yy`, and `xx` is one of its eight unreduced columns (43_display R172, R173). -/
def State.covers (s : State) (x0 y0 n : Nat) (yy : Fin 32) (xx : Fin 64) : Bool :=
  (List.range n).any fun r =>
    decide ((y0 + r) % 32 = yy.val ∧ x0 ≤ xx.val ∧ xx.val < x0 + 8) && (s.readByte (s.i.toNat + r)).getLsbD (7 - (xx.val - x0))

/-- Two states that differ at most in stack slots at index SP and above (10_state R27). -/
def SameButStaleSlots (s t : State) : Prop :=
  t = { s with stack := t.stack } ∧ ∀ k : Fin 16, k.val < s.sp.val → t.stack[k.val] = s.stack[k.val]

/-- Two states that differ at most in I, by a multiple of the 4096 addresses (20_memory R52). -/
def SameButIndexPage (s t : State) : Prop :=
  t = { s with i := t.i } ∧ t.i.toNat % 4096 = s.i.toNat % 4096

/-- The instruction of the next step reads the key input: EX9E, EXA1 or FX0A (10_state R41). -/
def State.readsKeys (s : State) : Prop :=
  ∃ x, decode s.fetchWord = .ok (.skp x) ∨ decode s.fetchWord = .ok (.sknp x) ∨ decode s.fetchWord = .ok (.ldVxK x)

/-- The instruction of the next step reads the random draw: CXNN (10_state R42). -/
def State.readsRnd (s : State) : Prop := ∃ x nn, decode s.fetchWord = .ok (.rnd x nn)

/-- What an operation with result `r` and flag `f` (0 or 1), in numbers, leaves: only V[x] and VF change; both orders give
result and flag when `x` is not VF, and the last write wins when it is (42_alu R148). -/
def FlaggedOutcome (x : Nib) (f r : Nat) (s t : State) : Prop :=
  Unchanged [.v] s t ∧ RegsSame [x, regVF] s t ∧
  (x ≠ regVF → (t.getV x).toNat = r ∧ (t.getV regVF).toNat = f) ∧
  (x = regVF → s.params.flagOrder = .flagFirst → (t.getV regVF).toNat = r) ∧
  (x = regVF → s.params.flagOrder = .resultFirst → (t.getV regVF).toNat = f)

/-- What OR, AND or XOR with result `r` leaves, by `LOGIC_VF` (42_alu R144). -/
def LogicOutcome (x : Nib) (r : Byte) (s t : State) : Prop :=
  Unchanged [.v] s t ∧ RegsSame [x, regVF] s t ∧
  (s.params.logicVF = .unchanged → t.getV x = r ∧ RegsSame [x] s t) ∧
  (s.params.logicVF = .clear → t.getV regVF = 0#8 ∧ (x ≠ regVF → t.getV x = r))

/-- What a conditional skip leaves: PC two further exactly when the condition holds, and nothing else changed
(41_control_flow R125). -/
def SkipOutcome (c : Prop) (s t : State) : Prop :=
  Unchanged [.pc] s t ∧ (c → t.pc = s.pc + 2#16) ∧ (¬ c → t.pc = s.pc)

/-- I after FX55 or FX65 on registers 0 to `x`, by `MEM_I_INCREMENT` (44_index_memory R197). -/
def IncrementOutcome (x : Nib) (s t : State) : Prop :=
  (s.params.memIIncrement = .none → t.i = s.i) ∧
  (s.params.memIIncrement = .xPlus1 → t.i.toNat = (s.i.toNat + x.toNat + 1) % 65536)

/-- Every component at the value reset gives it (70_reset R260), the font being the machine's parameter. -/
def State.AtReset (t : State) : Prop :=
  (∀ a, (h : a < 80) → t.readByte a = t.params.font[a]) ∧ (∀ a, 80 ≤ a → a < 4096 → t.readByte a = 0#8) ∧
  (∀ r, t.getV r = 0#8) ∧ t.i = 0#16 ∧ t.sp.val = 0 ∧ (∀ k : Fin 16, t.stack[k.val] = 0#16) ∧ t.dt = 0#8 ∧ t.st = 0#8 ∧
  (∀ y x, t.fb.cell y x = false) ∧ t.pc = 0x200#16

/-- An instruction with its ignored nibble, if it has one, at 0: what its line of a program says (30_encoding R78, R83). -/
def withoutIgnored : Instr → Instr
  | .cls _ => .cls 0
  | .ret _ => .ret 0
  | .seReg x y _ => .seReg x y 0
  | .sneReg x y _ => .sneReg x y 0
  | i => i

/-- A timer's value after its tick, in numbers: one less, and never below zero (40_cycle R106). -/
def ticked (b : Byte) : Nat := b.toNat - 1

end Sys2Proof.Machine
end

