-- ==== Sys2Proof/Certificates/Slice0/Obligations.lean ====
section
/-! DEFINITION. The statements for the provers, from the numbered rules of spec/. A statement about `exec` speaks of the
state the advance leaves: PC there is A + 2 (00_scope R12). Each holds for every value of the machine's parameters and of the
free inputs. Where a statement names a word, its numeric code is the spec's decision D1 (30_encoding R76, log 9). -/

open Sys2Proof Sys2Proof.Machine

/-! ### The cycle -/

/-- 40_cycle R107: when the word at PC decodes to `i`, a step is `exec i` after the advance, with no event yet, then the
tick of both timers; the fresh inputs of the step to come are the model's own convention (log 1). -/
def Obligations.StepRunsTheDecodedInstruction : Prop :=
  ∀ (s t : State) (i : Instr), decode s.fetchWord = .ok i → exec i { s with pc := s.pc + 2#16, events := [] } = .next t →
    step s = .next { t with
      dt := if t.dt = 0#8 then t.dt else t.dt - 1#8
      st := if t.st = 0#8 then t.st else t.st - 1#8
      keys := Config.freeKeys t.inputNo
      rnd := Config.freeRnd t.inputNo
      inputNo := t.inputNo + 1 }

/-- 40_cycle R100: every call of the step port fetches, executes and completes exactly one word, in every state. -/
def Obligations.EveryStepExecutesOneWordAndCompletes : Prop :=
  ∀ s : State, ∃ u, executeWord s.fetchWord s.beginCycle = .next u ∧ step s = .next u.endCycle

/-- 40_cycle R105: a word that decodes as unknown writes nothing, raises its event, keeps the PC of the advance, and the tick
still happens. The three input fields are the step port's fresh inputs (log 1). -/
def Obligations.UnknownWordOnlyAdvancesTicksAndReports : Prop :=
  ∀ (s : State) (r : Reject), decode s.fetchWord = .error r → ∃ t, step s = .next t ∧
    Unchanged [.pc, .dt, .st, .events, .keys, .rnd, .inputNo] s t ∧
    t.pc = s.pc + 2#16 ∧ t.dt.toNat = ticked s.dt ∧ t.st.toNat = ticked s.st ∧
    t.events = [⟨.unknownInstruction, s.pc, s.fetchWord⟩]

/-- 40_cycle R106: after execution, whatever the word, each nonzero timer is decremented once and a zero timer stays. -/
def Obligations.BothTimersTickOnceAfterEveryExecution : Prop :=
  ∀ s : State, ∃ u t, executeWord s.fetchWord s.beginCycle = .next u ∧ step s = .next t ∧
    (u.dt ≠ 0#8 → t.dt.toNat + 1 = u.dt.toNat) ∧ (u.dt = 0#8 → t.dt = 0#8) ∧
    (u.st ≠ 0#8 → t.st.toNat + 1 = u.st.toNat) ∧ (u.st = 0#8 → t.st = 0#8)

/-- 70_reset R260: the reset state, and the reset port from any state, put every component at its reset value; the inputs
and the parameters are not the reset's to change (that they are fields of State is log 1 and log 4). -/
def Obligations.ResetGivesEveryComponentItsValue : Prop :=
  State.reset.AtReset ∧ ∀ s : State, s.hostReset.AtReset ∧ s.hostReset.keys = s.keys ∧ s.hostReset.rnd = s.rnd ∧
    s.hostReset.params = s.params

/-- The invariant of a step holds at reset (70_reset R260). -/
def Obligations.ResetMeetsTheStepInvariant : Prop := State.reset.Inv

/-- Every step keeps memory in its canonical form and shows at most one event (20_memory R54, 60_exceptions R240). -/
def Obligations.EveryStepKeepsTheInvariant : Prop :=
  ∀ s t : State, s.Inv → step s = .next t → t.Inv

/-! ### Encoding -/

/-- 30_encoding R71, R76: no operand bit is dropped: decoding the word of any well-formed instruction gives it back. -/
def Obligations.DecodeOfEncodeIsTheInstruction : Prop :=
  ∀ i : Instr, i.wellFormed = true → decode (encode i) = .ok i

/-- 30_encoding R79: a word that decodes has one meaning: its instruction is well-formed and encodes to that very word. -/
def Obligations.EncodeOfDecodeIsTheWord : Prop :=
  ∀ (w : Word) (i : Instr), decode w = .ok i → i.wellFormed = true ∧ encode i = w

/-- 30_encoding R76, R79: the two-level decoder is the opcode map read row by row, first match first, on all 65536 words
(the numeric codes are the spec's decision D1, log 9; the ignored nibbles its decisions D3 and D4, log 10). -/
def Obligations.DecoderIsTheOpcodeMap : Prop :=
  ∀ w : Word, decode w = match firstRow w with
    | some r => .ok (r.make w)
    | none => .error (.unknownInstruction w)

/-- 30_encoding R80: the unknown words, family by family. -/
def Obligations.UnknownWordsAreThoseOfThreeFamilies : Prop :=
  ∀ w : Word, (∀ i, decode w ≠ .ok i) ↔
    (fieldOp w = 0x8#4 ∧ fieldN w ∈ [0x8#4, 0x9#4, 0xA#4, 0xB#4, 0xC#4, 0xD#4, 0xF#4]) ∨
    (fieldOp w = 0xE#4 ∧ fieldNN w ∉ [0x9E#8, 0xA1#8]) ∨
    (fieldOp w = 0xF#4 ∧
      fieldNN w ∉ [0x07#8, 0x0A#8, 0x15#8, 0x18#8, 0x1E#8, 0x29#8, 0x33#8, 0x55#8, 0x65#8])

/-- Words of the spec's test vectors (95_test_vectors) decode to the instructions they stand for. -/
def Obligations.WordsOfTheTestVectorsDecode : Prop :=
  decode 0x01E0#16 = .ok (.cls 1) ∧ decode 0x2400#16 = .ok (.call 0x400) ∧ decode 0x5121#16 = .ok (.seReg 1 2 1) ∧
  decode 0x8FF4#16 = .ok (.addReg 15 15) ∧ decode 0xA123#16 = .ok (.ldI 0x123) ∧ decode 0xDF21#16 = .ok (.drw 15 2 1) ∧
  decode 0xE1A1#16 = .ok (.sknp 1) ∧ decode 0xF333#16 = .ok (.ldB 3) ∧
  decode 0x8008#16 = .error (.unknownInstruction 0x8008)

/-- 20_memory R51, R61, 30_encoding R70, 40_cycle R101: the fetch is big-endian, the byte at PC being the high one, at every
PC; so a word stored high byte first at PC is the word the next step fetches, and storing it changes those two bytes alone. -/
def Obligations.StoredWordIsTheNextFetched : Prop :=
  (∀ s : State, s.fetchWord = s.readByte s.pc.toNat ++ s.readByte (s.pc.toNat + 1)) ∧
  ∀ (s : State) (w : Word), (s.withFetchWord 16 w.toNat).fetchWord = w ∧
    (s.withFetchWord 16 w.toNat).readByte s.pc.toNat = w.extractLsb' 8 8 ∧
    (s.withFetchWord 16 w.toNat).readByte (s.pc.toNat + 1) = w.extractLsb' 0 8 ∧
    Unchanged [.mem] s (s.withFetchWord 16 w.toNat) ∧
    BytesSame [maskAddr s.pc.toNat, maskAddr (s.pc.toNat + 1)] s (s.withFetchWord 16 w.toNat)

/-- 30_encoding R83 and R84: the line of an instruction stands for that instruction alone, its ignored nibble being 0, and a
shift whose second register is omitted has it 0 (the notation is the spec's decision D27, log 26). -/
def Obligations.AssemblyLineStandsForItsInstruction : Prop :=
  (∀ i : Instr, assemble (asmOf i) = some (withoutIgnored i)) ∧
  ∀ x : Nib, assemble ⟨.shr, [.reg x]⟩ = some (.shr x 0) ∧ assemble ⟨.shl, [.reg x]⟩ = some (.shl x 0)

/-! ### Control transfer -/

/-- 41_control_flow R123, JP nnn. -/
def Obligations.JpSetsPCToTheAddress : Prop :=
  ∀ (nnn : Addr) (s : State), decode (0x1#4 ++ nnn) = .ok (.jp nnn) ∧
    ∃ t, exec (.jp nnn) s = .next t ∧ Unchanged [.pc] s t ∧ t.pc.toNat = nnn.toNat

/-- 41_control_flow R124, CALL nnn: push and jump below 16 addresses; with 16 pushed, only the event (refusing the jump too
is the spec's decision D13, log 13). -/
def Obligations.CallPushesAndJumpsOrReports : Prop :=
  ∀ (nnn : Addr) (s : State), ∃ t, exec (.call nnn) s = .next t ∧
    ((h : s.sp.val < 16) → Unchanged [.pc, .sp, .stack] s t ∧ t.pc.toNat = nnn.toNat ∧ t.sp.val = s.sp.val + 1 ∧
      t.stack[s.sp.val] = s.pc ∧ ∀ k : Fin 16, k.val ≠ s.sp.val → t.stack[k.val] = s.stack[k.val]) ∧
    (s.sp.val = 16 → Unchanged [.events] s t ∧ t.events = s.events ++ [⟨.stackOverflow, s.pc - 2#16, 0x2#4 ++ nnn⟩])

/-- 41_control_flow R121, RET, whatever its ignored nibble: pop the last address pushed; on an empty stack, only the event
(the spec's decision D14, log 13). -/
def Obligations.RetPopsOrReports : Prop :=
  ∀ (k : Nib) (s : State), ∃ t, exec (.ret k) s = .next t ∧
    ((h : s.sp.val ≠ 0) → Unchanged [.pc, .sp] s t ∧ t.sp.val + 1 = s.sp.val ∧ t.pc = s.stack[s.sp.val - 1]) ∧
    (s.sp.val = 0 → Unchanged [.events] s t ∧
      t.events = s.events ++ [⟨.stackUnderflow, s.pc - 2#16, 0x0#4 ++ k ++ 0xEE#8⟩])

/-- Section 8 of the source (95_test_vectors E6): a CALL that is not refused, then a RET, gives PC and SP back, PC being the
address after the CALL, and changes nothing but the one stack slot the CALL wrote. -/
def Obligations.CallThenRetResumesAfterTheCall : Prop :=
  ∀ (nnn : Addr) (k : Nib) (s : State), s.sp.val < 16 → ∃ t u, exec (.call nnn) s = .next t ∧ exec (.ret k) t = .next u ∧
    u.pc = s.pc ∧ u.sp = s.sp ∧ Unchanged [.stack] s u ∧
    ∀ j : Fin 16, j.val ≠ s.sp.val → u.stack[j.val] = s.stack[j.val]

/-- 41_control_flow R122, SYS nnn: no effect on any part of the state but the event, raised exactly when SYS_REPORTS. -/
def Obligations.SysChangesNothingButMayReport : Prop :=
  ∀ (nnn : Addr) (s : State), ∃ t, exec (.sys nnn) s = .next t ∧ Unchanged [.events] s t ∧
    (s.params.sysReports = true → t.events = s.events ++ [⟨.unknownInstruction, s.pc - 2#16, 0x0#4 ++ nnn⟩]) ∧
    (s.params.sysReports = false → t.events = s.events)

/-- 41_control_flow R125 and R126, SE and SNE with an immediate. -/
def Obligations.ImmediateSkipsCompareAndSkip : Prop :=
  ∀ (x : Nib) (nn : Byte) (s : State),
    decode (0x3#4 ++ x ++ nn) = .ok (.seImm x nn) ∧ decode (0x4#4 ++ x ++ nn) = .ok (.sneImm x nn) ∧
    (∃ t, exec (.seImm x nn) s = .next t ∧ SkipOutcome (s.getV x = nn) s t) ∧
    (∃ t, exec (.sneImm x nn) s = .next t ∧ SkipOutcome (s.getV x ≠ nn) s t)

/-- 41_control_flow R127 and R128, SE and SNE with two registers, for every low nibble (the spec's decision D4, log 10). -/
def Obligations.RegisterSkipsCompareAndSkip : Prop :=
  ∀ (x y n : Nib) (s : State),
    decode (0x5#4 ++ x ++ y ++ n) = .ok (.seReg x y n) ∧ decode (0x9#4 ++ x ++ y ++ n) = .ok (.sneReg x y n) ∧
    (∃ t, exec (.seReg x y n) s = .next t ∧ SkipOutcome (s.getV x = s.getV y) s t) ∧
    (∃ t, exec (.sneReg x y n) s = .next t ∧ SkipOutcome (s.getV x ≠ s.getV y) s t)

/-- 41_control_flow R129, JP V0, nnn: the exact sum, above 0xFFF too (unmasked: the spec's decision D9, log 11). -/
def Obligations.JpV0AddsV0AndTheAddress : Prop :=
  ∀ (nnn : Addr) (s : State), decode (0xB#4 ++ nnn) = .ok (.jpV0 nnn) ∧
    ∃ t, exec (.jpV0 nnn) s = .next t ∧ Unchanged [.pc] s t ∧ t.pc.toNat = (s.getV 0x0#4).toNat + nnn.toNat

/-! ### Register loads, ALU and random -/

/-- 42_alu R141, LD Vx, nn, VF included. -/
def Obligations.LdImmLoadsTheByte : Prop :=
  ∀ (x : Nib) (nn : Byte) (s : State), decode (0x6#4 ++ x ++ nn) = .ok (.ldImm x nn) ∧
    ∃ t, exec (.ldImm x nn) s = .next t ∧ Unchanged [.v] s t ∧ RegsSame [x] s t ∧ t.getV x = nn

/-- 42_alu R142, ADD Vx, nn: modulo 256, VF untouched unless it is the destination. -/
def Obligations.AddImmWrapsWithoutFlag : Prop :=
  ∀ (x : Nib) (nn : Byte) (s : State), ∃ t, exec (.addImm x nn) s = .next t ∧ Unchanged [.v] s t ∧ RegsSame [x] s t ∧
    (t.getV x).toNat = ((s.getV x).toNat + nn.toNat) % 256

/-- 42_alu R143, LD Vx, Vy: no flag under any parameter (the spec's decision D7, log 4). -/
def Obligations.LdRegCopiesWithoutFlag : Prop :=
  ∀ (x y : Nib) (s : State), ∃ t, exec (.ldReg x y) s = .next t ∧ Unchanged [.v] s t ∧ RegsSame [x] s t ∧
    t.getV x = s.getV y

/-- 42_alu R144 to R147, OR, AND and XOR, for both values of LOGIC_VF (a parameter of the spec, D7, log 4). -/
def Obligations.LogicOperationsWriteResultAndVFByParameter : Prop :=
  ∀ (x y : Nib) (s : State),
    (∃ t, exec (.orReg x y) s = .next t ∧ LogicOutcome x (s.getV x ||| s.getV y) s t) ∧
    (∃ t, exec (.andReg x y) s = .next t ∧ LogicOutcome x (s.getV x &&& s.getV y) s t) ∧
    (∃ t, exec (.xorReg x y) s = .next t ∧ LogicOutcome x (s.getV x ^^^ s.getV y) s t)

/-- 42_alu R149, ADD Vx, Vy: the sum modulo 256, and VF = 1 exactly when it exceeds 255 (write order: parameter
FLAG_ORDER, D6, log 4). -/
def Obligations.AddRegGivesSumAndCarry : Prop :=
  ∀ (x y : Nib) (s : State), ∃ t, exec (.addReg x y) s = .next t ∧
    FlaggedOutcome x (if (s.getV x).toNat + (s.getV y).toNat > 255 then 1 else 0)
      (((s.getV x).toNat + (s.getV y).toNat) % 256) s t

/-- 42_alu R150 and R151, SUB and SUBN: the wrapped difference, and VF = 1 exactly when the minuend is STRICTLY greater, so
0 on equal operands (write order: parameter FLAG_ORDER, D6, log 4). -/
def Obligations.SubtractionsGiveDifferenceAndStrictFlag : Prop :=
  ∀ (x y : Nib) (s : State),
    (∃ t, exec (.subReg x y) s = .next t ∧
      FlaggedOutcome x (if (s.getV x).toNat > (s.getV y).toNat then 1 else 0)
        (((s.getV x).toNat + 256 - (s.getV y).toNat) % 256) s t) ∧
    (∃ t, exec (.subnReg x y) s = .next t ∧
      FlaggedOutcome x (if (s.getV y).toNat > (s.getV x).toNat then 1 else 0)
        (((s.getV y).toNat + 256 - (s.getV x).toNat) % 256) s t)

/-- 42_alu R152 to R154, SHR and SHL: by one bit, VF the bit shifted out, the source by SHIFT_SOURCE (parameters D5 and D6,
log 4). -/
def Obligations.ShiftsGiveTheBitShiftedOut : Prop :=
  ∀ (x y : Nib) (s : State) (b : Byte),
    (s.params.shiftSource = .vx → b = s.getV x) → (s.params.shiftSource = .vy → b = s.getV y) →
    (∃ t, exec (.shr x y) s = .next t ∧ FlaggedOutcome x (b.toNat % 2) (b.toNat / 2) s t) ∧
    (∃ t, exec (.shl x y) s = .next t ∧ FlaggedOutcome x (b.toNat / 128) (2 * b.toNat % 256) s t)

/-- 42_alu R155, RND Vx, nn: the step's draw AND the immediate, so no bit that nn lacks (the draw has no law: D16, log 1). -/
def Obligations.RndIsTheDrawMaskedByTheByte : Prop :=
  ∀ (x : Nib) (nn : Byte) (s : State), ∃ t, exec (.rnd x nn) s = .next t ∧ Unchanged [.v] s t ∧ RegsSame [x] s t ∧
    t.getV x = s.rnd &&& nn ∧ ∀ k, nn.getLsbD k = false → (t.getV x).getLsbD k = false

/-! ### Display -/

/-- 43_display R171, CLS: every cell off and nothing else changed, VF included. -/
def Obligations.ClsTurnsEveryCellOff : Prop :=
  ∀ (k : Nib) (s : State), decode (0x0#4 ++ k ++ 0xE0#8) = .ok (.cls k) ∧
    ∃ t, exec (.cls k) s = .next t ∧ Unchanged [.fb] s t ∧ ∀ y x, t.fb.cell y x = false

/-- 43_display R172 to R175, DRW: every cell is XORed with the sprite's bit over it, rows wrapping and columns past 63
dropped, and VF says exactly whether a lit cell went off; the coordinates are those before VF is written (D22, log 15). -/
def Obligations.DrwXorsTheSpriteAndReportsCollision : Prop :=
  ∀ (x y n : Nib) (s : State), ∃ t, exec (.drw x y n) s = .next t ∧ Unchanged [.v, .fb] s t ∧ RegsSame [regVF] s t ∧
    (∀ yy xx, t.fb.cell yy xx =
      (s.fb.cell yy xx ^^ s.covers ((s.getV x).toNat % 64) ((s.getV y).toNat % 32) n.toNat yy xx)) ∧
    (t.getV regVF = 1#8 ∨ t.getV regVF = 0#8) ∧
    (t.getV regVF = 1#8 ↔ ∃ yy xx, s.fb.cell yy xx = true ∧
      s.covers ((s.getV x).toNat % 64) ((s.getV y).toNat % 32) n.toNat yy xx = true)

/-- 43_display R172 and R174 applied twice: the same sprite drawn twice at the same place restores the framebuffer, and the
second draw collides exactly when some covered cell was off before the first. That last clause is the model's reading, not
R175's own sentence, which says more than R172 and R174 give (log 21). With x or y = F the first draw moves the coordinate
itself, so the two draws are not at one place: for those forms DrwXorsTheSpriteAndReportsCollision gives each single draw. -/
def Obligations.DrawingTwiceRestoresTheFramebuffer : Prop :=
  ∀ (x y n : Nib) (s : State), x ≠ regVF → y ≠ regVF → ∃ t u, exec (.drw x y n) s = .next t ∧ exec (.drw x y n) t = .next u ∧
    (∀ yy xx, u.fb.cell yy xx = s.fb.cell yy xx) ∧
    (u.getV regVF = 1#8 ↔ ∃ yy xx, s.fb.cell yy xx = false ∧
      s.covers ((s.getV x).toNat % 64) ((s.getV y).toNat % 32) n.toNat yy xx = true)

/-! ### Index register and memory transfer -/

/-- 44_index_memory R191, LD I, nnn. -/
def Obligations.LdISetsTheIndex : Prop :=
  ∀ (nnn : Addr) (s : State), decode (0xA#4 ++ nnn) = .ok (.ldI nnn) ∧
    ∃ t, exec (.ldI nnn) s = .next t ∧ Unchanged [.i] s t ∧ t.i.toNat = nnn.toNat

/-- 44_index_memory R192, ADD I, Vx: modulo 2^16, no flag (no VF write: the spec's decision D29, log 17). -/
def Obligations.AddIWrapsAtSixteenBitsWithoutFlag : Prop :=
  ∀ (x : Nib) (s : State), ∃ t, exec (.addI x) s = .next t ∧ Unchanged [.i] s t ∧
    t.i.toNat = (s.i.toNat + (s.getV x).toNat) % 65536

/-- 44_index_memory R193, LD F, Vx: five times the whole byte. -/
def Obligations.LdFSetsFiveTimesTheByte : Prop :=
  ∀ (x : Nib) (s : State), decode (0xF#4 ++ x ++ 0x29#8) = .ok (.ldF x) ∧
    ∃ t, exec (.ldF x) s = .next t ∧ Unchanged [.i] s t ∧ t.i.toNat = 5 * (s.getV x).toNat

/-- 44_index_memory R194, LD B, Vx: the three decimal digits at I, I + 1 and I + 2, each address masked, and no other byte. -/
def Obligations.LdBStoresTheDecimalDigits : Prop :=
  ∀ (x : Nib) (s : State), decode (0xF#4 ++ x ++ 0x33#8) = .ok (.ldB x) ∧
    ∃ t, exec (.ldB x) s = .next t ∧ Unchanged [.mem] s t ∧ BytesSame (s.window 3) s t ∧
      (t.readByte (s.i.toNat + 0)).toNat = (s.getV x).toNat / 100 ∧
      (t.readByte (s.i.toNat + 1)).toNat = (s.getV x).toNat / 10 % 10 ∧
      (t.readByte (s.i.toNat + 2)).toNat = (s.getV x).toNat % 10

/-- 44_index_memory R195 and R197, LD [I], Vx: V0 to Vx inclusive to the bytes from I on, no other byte, I by
MEM_I_INCREMENT (a parameter of the spec, D8, log 4). -/
def Obligations.DumpStoresRegistersUpToX : Prop :=
  ∀ (x : Nib) (s : State), ∃ t, exec (.dump x) s = .next t ∧ Unchanged [.mem, .i] s t ∧
    BytesSame (s.window (x.toNat + 1)) s t ∧ IncrementOutcome x s t ∧
    ∀ r : Nib, r.toNat ≤ x.toNat → t.readByte (s.i.toNat + r.toNat) = s.getV r

/-- 44_index_memory R196 and R197, LD Vx, [I]: V0 to Vx inclusive from the bytes from I on, no other register, I by
MEM_I_INCREMENT (a parameter of the spec, D8, log 4). -/
def Obligations.LoadReadsRegistersUpToX : Prop :=
  ∀ (x : Nib) (s : State), ∃ t, exec (.load x) s = .next t ∧ Unchanged [.v, .i] s t ∧ IncrementOutcome x s t ∧
    ∀ r : Nib, (r.toNat ≤ x.toNat → t.getV r = s.readByte (s.i.toNat + r.toNat)) ∧
      (x.toNat < r.toNat → t.getV r = s.getV r)

/-- Section 8 of the source (44_index_memory R196): a dump, then a load of the same registers through the same I into
whatever the registers hold by then, gives them back, at every I and under both values of MEM_I_INCREMENT. -/
def Obligations.DumpThenLoadRestoresTheRegisters : Prop :=
  ∀ (x : Nib) (s : State) (v : Vector Byte 16), ∃ t u, exec (.dump x) s = .next t ∧
    exec (.load x) { t with v := v, i := s.i } = .next u ∧ ∀ r : Nib, r.toNat ≤ x.toNat → u.getV r = s.getV r

/-! ### Timers and keys -/

/-- 45_timers_keys R214, LD Vx, DT: DT before the tick of the same step, DT one less after it if it was nonzero. -/
def Obligations.LdVxDTReadsTheTimerBeforeTheTick : Prop :=
  (∀ (x : Nib) (s : State), decode (0xF#4 ++ x ++ 0x07#8) = .ok (.ldVxDT x) ∧
    ∃ t, exec (.ldVxDT x) s = .next t ∧ Unchanged [.v] s t ∧ RegsSame [x] s t ∧ t.getV x = s.dt) ∧
  (∀ (x : Nib) (s : State), decode s.fetchWord = .ok (.ldVxDT x) →
    ∃ t, step s = .next t ∧ t.getV x = s.dt ∧ t.dt.toNat = ticked s.dt)

/-- 45_timers_keys R215 and R216, LD DT, Vx and LD ST, Vx: the register is copied, and the same step ticks it, so that the
timer reads one less after the step and V[x] = 1 never sounds (10_state R44). -/
def Obligations.TimerWritesAreTickedInTheSameStep : Prop :=
  (∀ (x : Nib) (s : State), (∃ t, exec (.ldDTVx x) s = .next t ∧ Unchanged [.dt] s t ∧ t.dt = s.getV x) ∧
    (∃ t, exec (.ldSTVx x) s = .next t ∧ Unchanged [.st] s t ∧ t.st = s.getV x)) ∧
  (∀ (x : Nib) (s : State), decode s.fetchWord = .ok (.ldDTVx x) →
    ∃ t, step s = .next t ∧ t.dt.toNat = ticked (s.getV x) ∧ t.st.toNat = ticked s.st) ∧
  (∀ (x : Nib) (s : State), decode s.fetchWord = .ok (.ldSTVx x) →
    ∃ t, step s = .next t ∧ t.st.toNat = ticked (s.getV x) ∧ t.dt.toNat = ticked s.dt ∧
      (t.sound = true ↔ 2 ≤ (s.getV x).toNat))

/-- 45_timers_keys R211 to R213, SKP and SKNP: the level of the key the low nibble of V[x] names (the low nibble is the
spec's decision D11, log 14). -/
def Obligations.KeySkipsTestTheKeyLevel : Prop :=
  ∀ (x : Nib) (s : State),
    (∃ t, exec (.skp x) s = .next t ∧ SkipOutcome (s.keys.getLsbD ((s.getV x).toNat % 16) = true) s t) ∧
    (∃ t, exec (.sknp x) s = .next t ∧ SkipOutcome (s.keys.getLsbD ((s.getV x).toNat % 16) = false) s t)

/-- 45_timers_keys R217, LD Vx, K: the lowest key down is recorded and PC stays; with no key down only PC moves, back to the
instruction itself (level and lowest-first are the spec's decision D12, log 14). -/
def Obligations.KeyWaitRecordsTheLowestKeyOrRewinds : Prop :=
  ∀ (x : Nib) (s : State), ∃ t, exec (.ldVxK x) s = .next t ∧
    (∀ k, k < 16 → s.keys.getLsbD k = true → (∀ j, j < k → s.keys.getLsbD j = false) →
      Unchanged [.v] s t ∧ RegsSame [x] s t ∧ (t.getV x).toNat = k) ∧
    ((∀ k, k < 16 → s.keys.getLsbD k = false) → Unchanged [.pc] s t ∧ t.pc = s.pc - 2#16)

/-- 70_reset R270: a waiting step of FX0A leaves PC at the same word and every other register as it was, and still ticks the
timers; the three input fields are the step port's fresh inputs (log 1). -/
def Obligations.WaitingStepOnlyTicksTheTimers : Prop :=
  ∀ (x : Nib) (s : State), decode s.fetchWord = .ok (.ldVxK x) → s.keys = 0#16 →
    ∃ t, step s = .next t ∧ Unchanged [.dt, .st, .events, .keys, .rnd, .inputNo] s t ∧
      t.dt.toNat = ticked s.dt ∧ t.st.toNat = ticked s.st ∧ t.events = []

/-! ### The whole machine -/

/-- 10_state R21, 20_memory R50: no instruction but FX33 and FX55 changes a byte of memory. -/
def Obligations.OnlyBcdAndDumpChangeMemory : Prop :=
  ∀ s t : State, step s = .next t → (∃ a, t.readByte a ≠ s.readByte a) →
    ∃ x, decode s.fetchWord = .ok (.ldB x) ∨ decode s.fetchWord = .ok (.dump x)

/-- 10_state R30: "Only two instructions write it": no instruction but 00E0 and DXYN changes a framebuffer cell. -/
def Obligations.OnlyClsAndDrwChangeTheFramebuffer : Prop :=
  ∀ s t : State, step s = .next t → (∃ y x, t.fb.cell y x ≠ s.fb.cell y x) →
    (∃ k, decode s.fetchWord = .ok (.cls k)) ∨ ∃ x y n, decode s.fetchWord = .ok (.drw x y n)

/-- 10_state R26 and R27: no instruction but CALL writes a stack slot, and then only the one at SP; no instruction but CALL
and RET changes SP. -/
def Obligations.OnlyCallAndRetTouchTheStack : Prop :=
  ∀ s t : State, step s = .next t →
    ((∃ k : Fin 16, t.stack[k.val] ≠ s.stack[k.val]) → ∃ nnn, decode s.fetchWord = .ok (.call nnn)) ∧
    (∀ k : Fin 16, t.stack[k.val] ≠ s.stack[k.val] → k.val = s.sp.val) ∧
    (t.sp ≠ s.sp → (∃ nnn, decode s.fetchWord = .ok (.call nnn)) ∨ ∃ k, decode s.fetchWord = .ok (.ret k))

/-- 60_exceptions R231, R239 and R240: a step raises no event or one, which carries the address and the word of its
instruction and whose kind tells the condition. -/
def Obligations.EveryStepRaisesAtMostOneEvent : Prop :=
  ∀ s t : State, step s = .next t → t.events = [] ∨ ∃ e, t.events = [e] ∧ e.addr = s.pc ∧ e.word = s.fetchWord ∧
    (e.kind = .unknownInstruction → firstRow s.fetchWord = none ∨
      s.params.sysReports = true ∧ ∃ nnn, decode s.fetchWord = .ok (.sys nnn)) ∧
    (e.kind = .stackOverflow → s.sp.val = 16 ∧ ∃ nnn, decode s.fetchWord = .ok (.call nnn)) ∧
    (e.kind = .stackUnderflow → s.sp.val = 0 ∧ ∃ k, decode s.fetchWord = .ok (.ret k))

/-- 00_scope R7: no step changes a parameter of the machine (that they are fields of State is log 4). -/
def Obligations.NoStepChangesAParameter : Prop :=
  ∀ s t : State, step s = .next t → t.params = s.params

/-- 10_state R27 and R32: stack slots at SP and above are never observable: two states that differ only there step alike and
differ only there again. -/
def Obligations.StaleStackSlotsAreUnobservable : Prop :=
  ∀ s s' : State, SameButStaleSlots s s' → ∃ t t', step s = .next t ∧ step s' = .next t' ∧ SameButStaleSlots t t'

/-- 20_memory R52 and decision D9: since every access masks its address, two states whose I differ by a multiple of 4096 step
alike and differ only so again (log 11). -/
def Obligations.OnlyTheLowTwelveBitsOfIMatter : Prop :=
  ∀ s s' : State, SameButIndexPage s s' → ∃ t t', step s = .next t ∧ step s' = .next t' ∧ SameButIndexPage t t'

/-- 10_state R41 and R42: KEYS reaches only EX9E, EXA1 and FX0A, and RND only CXNN: with any other instruction at PC a step
does not depend on that input. -/
def Obligations.InputsReachOnlyTheirInstructions : Prop :=
  ∀ (s : State) (k : BitVec 16) (b : Byte),
    (¬ s.readsKeys → stepWith s k s.rnd = step s) ∧ (¬ s.readsRnd → stepWith s s.keys b = step s)

/-- The canonical form (log 7): two canonical memories that read the same at every address are the same data. -/
def Obligations.CanonicalMemoriesWithEqualBytesAreEqual : Prop :=
  ∀ (font : Font) (m m' : Memory), Memory.wf font m → Memory.wf font m' →
    (∀ a, a < 4096 → Memory.read font m a = Memory.read font m' a) → m = m'

/-- 20_memory R52 and R57: every address, however large, is that of one of the 4096 bytes, and no access stops. -/
def Obligations.AddressesWrapAtFourKilobytes : Prop :=
  ∀ (s : State) (a k : Nat) (b : Byte), s.readByte (a + 4096 * k) = s.readByte a ∧
    s.writeByte (a + 4096 * k) b = s.writeByte a b

/-! ### Ports -/

/-- 70_reset R263: a load of at most 3584 bytes resets the block, places byte k of the image at 0x200 + k and leaves every
other byte outside the font 0 (what the length is and that a load resets: the spec's decision D19, log 16). -/
def Obligations.LoadResetsAndPlacesTheImage : Prop :=
  ∀ (s : State) (image : List Byte), image.length ≤ 3584 → ∃ t, s.load image = (.ok, t) ∧
    (∀ k, (h : k < image.length) → t.readByte (0x200 + k) = image[k]) ∧
    (∀ a, (h : a < 80) → t.readByte a = s.params.font[a]) ∧
    (∀ a, 80 ≤ a → a < 4096 → ¬ (0x200 ≤ a ∧ a < 0x200 + image.length) → t.readByte a = 0#8) ∧
    Unchanged [.mem] s.hostReset t

/-- 70_reset R264, 60_exceptions R235: a longer image is rejected whole (the spec's decision D19, log 16). -/
def Obligations.OversizedLoadIsRejectedWhole : Prop :=
  ∀ (s : State) (image : List Byte), 3584 < image.length → s.load image = (.capacityError, s)

/-- 10_state R43: bit y * 64 + x of the 2048-bit port is the cell in row y, column x. -/
def Obligations.FramebufferPortIsRowMajor : Prop :=
  ∀ (s : State) (y : Fin 32) (x : Fin 64), s.fbPort.getLsbD (y.val * 64 + x.val) = s.fb.cell y x

/-- 40_cycle R107, 10_state R41 and R42: the inputs given to `stepWith` are the ones its instruction reads, whatever inputs the
state held. RND reaches CXNN, and KEYS reaches EX9E, EXA1 and FX0A (that the step port's inputs are fields of State is log 1;
the low nibble and the lowest key are the spec's decisions D11 and D12, log 14). -/
def Obligations.GivenInputsReachTheirInstructions : Prop :=
  ∀ (s : State) (k : BitVec 16) (b : Byte) (x : Nib),
    (∀ nn, decode s.fetchWord = .ok (.rnd x nn) → ∃ t, stepWith s k b = .next t ∧ t.getV x = b &&& nn) ∧
    (decode s.fetchWord = .ok (.skp x) → ∃ t, stepWith s k b = .next t ∧
      t.pc = if k.getLsbD ((s.getV x).toNat % 16) then s.pc + 4#16 else s.pc + 2#16) ∧
    (decode s.fetchWord = .ok (.sknp x) → ∃ t, stepWith s k b = .next t ∧
      t.pc = if k.getLsbD ((s.getV x).toNat % 16) then s.pc + 2#16 else s.pc + 4#16) ∧
    (decode s.fetchWord = .ok (.ldVxK x) → ∃ t, stepWith s k b = .next t ∧
      (∀ j, j < 16 → k.getLsbD j = true → (∀ l, l < j → k.getLsbD l = false) →
        (t.getV x).toNat = j ∧ t.pc = s.pc + 2#16) ∧
      (k = 0#16 → (∀ r, t.getV r = s.getV r) ∧ t.pc = s.pc))
end

