-- ==== Sys2Proof/Laws/Decode.lean ====
section
/-! SUPPORT. The fields of a word written as its nibbles, bytes and address, and the two bytes of a word. -/

namespace Sys2Proof

variable (op x y n : Nib) (nn : Byte) (nnn : Addr)

/-- A bit of a word written as opcode and address. -/
theorem bit_addr (i : Nat) :
    BitVec.getLsbD (w := 16) (op ++ nnn) i = if i < 12 then nnn.getLsbD i else op.getLsbD (i - 12) :=
  BitVec.getLsbD_append

/-- A bit of a word written as opcode, `x` and low byte. -/
theorem bit_imm (i : Nat) :
    BitVec.getLsbD (w := 16) (op ++ x ++ nn) i =
      if i < 8 then nn.getLsbD i else if i - 8 < 4 then x.getLsbD (i - 8) else op.getLsbD (i - 8 - 4) :=
  BitVec.getLsbD_append.trans (if_congr Iff.rfl rfl BitVec.getLsbD_append)

/-- A bit of a word written as its four nibbles. -/
theorem bit_nibs (i : Nat) :
    BitVec.getLsbD (w := 16) (op ++ x ++ y ++ n) i =
      if i < 4 then n.getLsbD i else if i - 4 < 4 then y.getLsbD (i - 4)
      else if i - 4 - 4 < 4 then x.getLsbD (i - 4 - 4) else op.getLsbD (i - 4 - 4 - 4) :=
  BitVec.getLsbD_append.trans (if_congr Iff.rfl rfl
    (BitVec.getLsbD_append.trans (if_congr Iff.rfl rfl BitVec.getLsbD_append)))

theorem fieldOp_addr : fieldOp (op ++ nnn) = op := by
  apply BitVec.eq_of_getLsbD_eq; intro i hi; simp [fieldOp, bit_addr, hi]

theorem fieldNNN_addr : fieldNNN (op ++ nnn) = nnn := by
  apply BitVec.eq_of_getLsbD_eq; intro i hi; simp [fieldNNN, bit_addr, hi]

theorem fieldNN_addr : fieldNN (op ++ nnn) = nnn.extractLsb' 0 8 := by
  apply BitVec.eq_of_getLsbD_eq; intro i hi
  have : i < 12 := by omega
  simp [fieldNN, bit_addr, hi, this]

theorem fieldX_addr : fieldX (op ++ nnn) = nnn.extractLsb' 8 4 := by
  apply BitVec.eq_of_getLsbD_eq; intro i hi
  have : 8 + i < 12 := by omega
  simp [fieldX, bit_addr, hi, this]

theorem fieldOp_imm : fieldOp (op ++ x ++ nn) = op := by
  apply BitVec.eq_of_getLsbD_eq; intro i hi
  have h0 : ¬ 12 + i < 8 := by omega
  have : ¬ 12 + i - 8 < 4 := by omega
  have h2 : 12 + i - 8 - 4 = i := by omega
  simp [fieldOp, bit_imm, hi, h0, this, h2]

theorem fieldX_imm : fieldX (op ++ x ++ nn) = x := by
  apply BitVec.eq_of_getLsbD_eq; intro i hi; simp [fieldX, bit_imm, hi]

theorem fieldNN_imm : fieldNN (op ++ x ++ nn) = nn := by
  apply BitVec.eq_of_getLsbD_eq; intro i hi; simp [fieldNN, bit_imm, hi]

theorem fieldOp_nibs : fieldOp (op ++ x ++ y ++ n) = op := by
  apply BitVec.eq_of_getLsbD_eq; intro i hi
  have h0 : ¬ 12 + i < 4 := by omega
  have h1 : ¬ 12 + i - 4 < 4 := by omega
  have h2 : ¬ 12 + i - 4 - 4 < 4 := by omega
  have h3 : 12 + i - 4 - 4 - 4 = i := by omega
  simp [fieldOp, bit_nibs, hi, h0, h1, h2, h3]

theorem fieldX_nibs : fieldX (op ++ x ++ y ++ n) = x := by
  apply BitVec.eq_of_getLsbD_eq; intro i hi
  have h0 : ¬ 8 + i < 4 := by omega
  have h1 : ¬ 8 + i - 4 < 4 := by omega
  have h2 : 8 + i - 4 - 4 = i := by omega
  simp [fieldX, bit_nibs, hi, h0, h1, h2]

theorem fieldY_nibs : fieldY (op ++ x ++ y ++ n) = y := by
  apply BitVec.eq_of_getLsbD_eq; intro i hi; simp [fieldY, bit_nibs, hi]

theorem fieldN_nibs : fieldN (op ++ x ++ y ++ n) = n := by
  apply BitVec.eq_of_getLsbD_eq; intro i hi; simp [fieldN, bit_nibs, hi]

/-- A word is the two bytes it is laid out as. -/
theorem wordOfBytes_extract (w : Word) : wordOfBytes (w.extractLsb' 8 8) (w.extractLsb' 0 8) = w := by
  apply BitVec.eq_of_getLsbD_eq; intro i hi
  simp only [wordOfBytes, BitVec.getLsbD_append, BitVec.getLsbD_extractLsb']
  by_cases h : i < 8
  · simp [h]
  · have h1 : i - 8 < 8 := by omega
    have h2 : 8 + (i - 8) = i := by omega
    simp [h, h1, h2]

/-- A word is its primary opcode and its address field. -/
theorem op_append_nnn (w : Word) : fieldOp w ++ fieldNNN w = w := by
  apply BitVec.eq_of_getLsbD_eq; intro i hi
  simp only [fieldOp, fieldNNN, BitVec.getLsbD_append, BitVec.getLsbD_extractLsb']
  by_cases h : i < 12
  · simp [h]
  · have h1 : i - 12 < 4 := by omega
    have h2 : 12 + (i - 12) = i := by omega
    simp [h, h1, h2]

/-- A word is its primary opcode, its field `x` and its low byte. -/
theorem op_append_x_nn (w : Word) : fieldOp w ++ fieldX w ++ fieldNN w = w := by
  apply BitVec.eq_of_getLsbD_eq; intro i hi
  simp only [fieldOp, fieldX, fieldNN, BitVec.getLsbD_append, BitVec.getLsbD_extractLsb']
  by_cases h : i < 8
  · simp [h]
  · by_cases h' : i - 8 < 4
    · have h2 : 8 + (i - 8) = i := by omega
      simp [h, h', h2]
    · have h1 : i - 8 - 4 < 4 := by omega
      have h2 : 12 + (i - 8 - 4) = i := by omega
      simp [h, h', h1, h2]

/-- A word is its four nibbles. -/
theorem op_append_x_y_n (w : Word) : fieldOp w ++ fieldX w ++ fieldY w ++ fieldN w = w := by
  apply BitVec.eq_of_getLsbD_eq; intro i hi
  simp only [fieldOp, fieldX, fieldY, fieldN, BitVec.getLsbD_append, BitVec.getLsbD_extractLsb']
  by_cases h : i < 4
  · simp [h]
  · by_cases h' : i - 4 < 4
    · have h2 : 4 + (i - 4) = i := by omega
      simp [h, h', h2]
    · by_cases h'' : i - 4 - 4 < 4
      · have h2 : 8 + (i - 4 - 4) = i := by omega
        simp [h, h', h'', h2]
      · have h1 : i - 4 - 4 - 4 < 4 := by omega
        have h2 : 12 + (i - 4 - 4 - 4) = i := by omega
        simp [h, h', h'', h1, h2]

end Sys2Proof
end

