-- ==== Sys2Proof/Laws/Memory.lean ====
section
/-! SUPPORT. The laws of memory: read after write, and that every memory operation keeps the canonical form. -/

namespace Sys2Proof.Machine

/-- The mask is reduction modulo the 4096 addresses. -/
theorem maskAddr_eq_mod (a : Nat) : maskAddr a = a % 4096 :=
  Nat.and_two_pow_sub_one_eq_mod a 12

theorem maskAddr_lt (a : Nat) : maskAddr a < 4096 := by
  rw [maskAddr_eq_mod]; omega

@[simp] theorem maskAddr_maskAddr (a : Nat) : maskAddr (maskAddr a) = maskAddr a := by
  simp only [maskAddr_eq_mod]; omega

theorem Memory.read_cons (font : Font) (d : Host.Cell) (m : Memory) (c : Nat) :
    Memory.read font (d :: m) c = if d.1 = c then d.2 else Memory.read font m c := rfl

theorem Memory.read_erase (font : Font) (m : Memory) (a c : Nat) :
    Memory.read font (Memory.erase m a) c = if c = a then Memory.initial font a else Memory.read font m c := by
  induction m with
  | nil =>
    by_cases h : c = a
    · subst h; simp [Memory.erase, Memory.read]
    · simp [Memory.erase, h]
  | cons d m ih =>
    by_cases hd : d.1 = a
    · rw [Memory.erase, if_pos hd, ih, Memory.read_cons, hd]
      by_cases h : c = a
      · rw [if_pos h, if_pos h]
      · rw [if_neg h, if_neg h, if_neg (Ne.symm h)]
    · rw [Memory.erase, if_neg hd, Memory.read_cons, Memory.read_cons, ih]
      by_cases h : d.1 = c
      · rw [if_pos h, if_pos h, if_neg fun e => hd (h.trans e)]
      · rw [if_neg h, if_neg h]

theorem Memory.read_insert (font : Font) (m : Memory) (a c : Nat) (b : Byte) (ha : ∀ d ∈ m, d.1 ≠ a) :
    Memory.read font (Memory.insert m a b) c = if c = a then b else Memory.read font m c := by
  induction m with
  | nil => simp only [Memory.insert, Memory.read, eq_comm]
  | cons d m ih =>
    have hd : d.1 ≠ a := ha d (by simp)
    have ih := ih fun e he => ha e (by simp [he])
    by_cases hlt : a < d.1
    · rw [Memory.insert, if_pos hlt, Memory.read_cons]
      simp only [eq_comm]
    · rw [Memory.insert, if_neg hlt, Memory.read_cons, Memory.read_cons, ih]
      by_cases h : d.1 = c
      · rw [if_pos h, if_pos h, if_neg fun e => hd (h.trans e)]
      · rw [if_neg h, if_neg h]

theorem Memory.mem_erase (m : Memory) (a : Nat) (d : Host.Cell) : d ∈ Memory.erase m a ↔ d ∈ m ∧ d.1 ≠ a := by
  induction m with
  | nil => simp [Memory.erase]
  | cons e m ih =>
    by_cases he : e.1 = a
    · simp only [Memory.erase, he, if_true, ih, List.mem_cons]
      constructor
      · rintro ⟨h, hn⟩; exact ⟨.inr h, hn⟩
      · rintro ⟨rfl | h, hn⟩
        · exact absurd he hn
        · exact ⟨h, hn⟩
    · simp only [Memory.erase, he, if_false, List.mem_cons, ih]
      constructor
      · rintro (rfl | ⟨h, hn⟩)
        · exact ⟨.inl rfl, he⟩
        · exact ⟨.inr h, hn⟩
      · rintro ⟨rfl | h, hn⟩
        · exact .inl rfl
        · exact .inr ⟨h, hn⟩

theorem Memory.mem_insert (m : Memory) (a : Nat) (b : Byte) (d : Host.Cell) :
    d ∈ Memory.insert m a b ↔ d = (a, b) ∨ d ∈ m := by
  induction m with
  | nil => simp [Memory.insert]
  | cons e m ih =>
    by_cases h : a < e.1
    · simp [Memory.insert, h]
    · simp only [Memory.insert, h, if_false, List.mem_cons, ih]; tauto

/-- Read after write, for every memory: the byte written at its own address, every other byte as before (20_memory R58). -/
theorem Memory.read_write (font : Font) (m : Memory) (a c : Nat) (b : Byte) :
    Memory.read font (Memory.write font m a b) c = if c = a then b else Memory.read font m c := by
  by_cases hb : b = Memory.initial font a
  · simp [Memory.write, hb, Memory.read_erase]
  · rw [Memory.write, if_neg hb, Memory.read_insert _ _ _ _ _ fun d hd => ((Memory.mem_erase _ _ _).1 hd).2,
      Memory.read_erase]
    by_cases h : c = a <;> simp [h]

theorem Memory.pairwise_erase {m : Memory} (a : Nat) (h : m.Pairwise fun c d => c.1 < d.1) :
    (Memory.erase m a).Pairwise fun c d => c.1 < d.1 := by
  induction m with
  | nil => exact .nil
  | cons e m ih =>
    rw [List.pairwise_cons] at h
    by_cases he : e.1 = a
    · simpa [Memory.erase, he] using ih h.2
    · simp only [Memory.erase, he, if_false, List.pairwise_cons]
      exact ⟨fun d hd => h.1 d ((Memory.mem_erase _ _ _).1 hd).1, ih h.2⟩

theorem Memory.pairwise_insert {m : Memory} (a : Nat) (b : Byte) (ha : ∀ d ∈ m, d.1 ≠ a)
    (h : m.Pairwise fun c d => c.1 < d.1) : (Memory.insert m a b).Pairwise fun c d => c.1 < d.1 := by
  induction m with
  | nil => simp [Memory.insert]
  | cons e m ih =>
    rw [List.pairwise_cons] at h
    by_cases hlt : a < e.1
    · simp only [Memory.insert, hlt, if_true, List.pairwise_cons, List.mem_cons]
      refine ⟨?_, h.1, h.2⟩
      rintro d (rfl | hd)
      · exact hlt
      · exact hlt.trans (h.1 d hd)
    · simp only [Memory.insert, hlt, if_false, List.pairwise_cons]
      refine ⟨fun d hd => ?_, ih (fun d hd => ha d (by simp [hd])) h.2⟩
      rcases (Memory.mem_insert _ _ _ _).1 hd with rfl | hd
      · have := ha e (by simp); simp only; omega
      · exact h.1 d hd

/-- A write keeps the canonical form, at every address of the 4096. -/
theorem Memory.wf_write {font : Font} {m : Memory} (h : Memory.wf font m) {a : Nat} (ha : a < 4096) (b : Byte) :
    Memory.wf font (Memory.write font m a b) := by
  by_cases hb : b = Memory.initial font a
  · rw [Memory.write, if_pos hb]
    exact ⟨Memory.pairwise_erase a h.1, fun c hc => h.2 c ((Memory.mem_erase _ _ _).1 hc).1⟩
  · rw [Memory.write, if_neg hb]
    refine ⟨Memory.pairwise_insert a b (fun d hd => ((Memory.mem_erase _ _ _).1 hd).2) (Memory.pairwise_erase a h.1), ?_⟩
    intro c hc
    rcases (Memory.mem_insert _ _ _ _).1 hc with rfl | hc
    · exact ⟨ha, hb⟩
    · exact h.2 c ((Memory.mem_erase _ _ _).1 hc).1

/-- The empty list, memory right after reset, is canonical. -/
theorem Memory.wf_nil (font : Font) : Memory.wf font [] := ⟨.nil, by simp⟩

end Sys2Proof.Machine
end

