-- ==== Sys2Proof/Laws/State.lean ====
section
/-! SUPPORT. One lemma per field per update of the state, true by rfl, so that no proof unfolds a record update; then the
same for the reads `getV`, `readByte` and `indexAddr` of an update that does not touch what they read. -/

namespace Sys2Proof.Machine

@[simp] theorem State.setV_v (s : State) (x : Nib) (b : Byte) : (s.setV x b).v = s.v.set x.toNat b x.isLt := rfl
@[simp] theorem State.setV_i (s : State) (x : Nib) (b : Byte) : (s.setV x b).i = s.i := rfl
@[simp] theorem State.setV_pc (s : State) (x : Nib) (b : Byte) : (s.setV x b).pc = s.pc := rfl
@[simp] theorem State.setV_stack (s : State) (x : Nib) (b : Byte) : (s.setV x b).stack = s.stack := rfl
@[simp] theorem State.setV_sp (s : State) (x : Nib) (b : Byte) : (s.setV x b).sp = s.sp := rfl
@[simp] theorem State.setV_dt (s : State) (x : Nib) (b : Byte) : (s.setV x b).dt = s.dt := rfl
@[simp] theorem State.setV_st (s : State) (x : Nib) (b : Byte) : (s.setV x b).st = s.st := rfl
@[simp] theorem State.setV_fb (s : State) (x : Nib) (b : Byte) : (s.setV x b).fb = s.fb := rfl
@[simp] theorem State.setV_mem (s : State) (x : Nib) (b : Byte) : (s.setV x b).mem = s.mem := rfl
@[simp] theorem State.setV_keys (s : State) (x : Nib) (b : Byte) : (s.setV x b).keys = s.keys := rfl
@[simp] theorem State.setV_rnd (s : State) (x : Nib) (b : Byte) : (s.setV x b).rnd = s.rnd := rfl
@[simp] theorem State.setV_inputNo (s : State) (x : Nib) (b : Byte) : (s.setV x b).inputNo = s.inputNo := rfl
@[simp] theorem State.setV_events (s : State) (x : Nib) (b : Byte) : (s.setV x b).events = s.events := rfl
@[simp] theorem State.setV_params (s : State) (x : Nib) (b : Byte) : (s.setV x b).params = s.params := rfl

@[simp] theorem State.readByte_setV (s : State) (x : Nib) (b : Byte) (c : Nat) : (s.setV x b).readByte c = s.readByte c := rfl
@[simp] theorem State.indexAddr_setV (s : State) (x : Nib) (b : Byte) (c : Nat) : (s.setV x b).indexAddr c = s.indexAddr c := rfl

@[simp] theorem State.setI_v (s : State) (a : Word) : (s.setI a).v = s.v := rfl
@[simp] theorem State.setI_i (s : State) (a : Word) : (s.setI a).i = a := rfl
@[simp] theorem State.setI_pc (s : State) (a : Word) : (s.setI a).pc = s.pc := rfl
@[simp] theorem State.setI_stack (s : State) (a : Word) : (s.setI a).stack = s.stack := rfl
@[simp] theorem State.setI_sp (s : State) (a : Word) : (s.setI a).sp = s.sp := rfl
@[simp] theorem State.setI_dt (s : State) (a : Word) : (s.setI a).dt = s.dt := rfl
@[simp] theorem State.setI_st (s : State) (a : Word) : (s.setI a).st = s.st := rfl
@[simp] theorem State.setI_fb (s : State) (a : Word) : (s.setI a).fb = s.fb := rfl
@[simp] theorem State.setI_mem (s : State) (a : Word) : (s.setI a).mem = s.mem := rfl
@[simp] theorem State.setI_keys (s : State) (a : Word) : (s.setI a).keys = s.keys := rfl
@[simp] theorem State.setI_rnd (s : State) (a : Word) : (s.setI a).rnd = s.rnd := rfl
@[simp] theorem State.setI_inputNo (s : State) (a : Word) : (s.setI a).inputNo = s.inputNo := rfl
@[simp] theorem State.setI_events (s : State) (a : Word) : (s.setI a).events = s.events := rfl
@[simp] theorem State.setI_params (s : State) (a : Word) : (s.setI a).params = s.params := rfl

@[simp] theorem State.getV_setI (s : State) (a : Word) (r : Nib) : (s.setI a).getV r = s.getV r := rfl
@[simp] theorem State.readByte_setI (s : State) (a : Word) (c : Nat) : (s.setI a).readByte c = s.readByte c := rfl

@[simp] theorem State.setPC_v (s : State) (a : Word) : (s.setPC a).v = s.v := rfl
@[simp] theorem State.setPC_i (s : State) (a : Word) : (s.setPC a).i = s.i := rfl
@[simp] theorem State.setPC_pc (s : State) (a : Word) : (s.setPC a).pc = a := rfl
@[simp] theorem State.setPC_stack (s : State) (a : Word) : (s.setPC a).stack = s.stack := rfl
@[simp] theorem State.setPC_sp (s : State) (a : Word) : (s.setPC a).sp = s.sp := rfl
@[simp] theorem State.setPC_dt (s : State) (a : Word) : (s.setPC a).dt = s.dt := rfl
@[simp] theorem State.setPC_st (s : State) (a : Word) : (s.setPC a).st = s.st := rfl
@[simp] theorem State.setPC_fb (s : State) (a : Word) : (s.setPC a).fb = s.fb := rfl
@[simp] theorem State.setPC_mem (s : State) (a : Word) : (s.setPC a).mem = s.mem := rfl
@[simp] theorem State.setPC_keys (s : State) (a : Word) : (s.setPC a).keys = s.keys := rfl
@[simp] theorem State.setPC_rnd (s : State) (a : Word) : (s.setPC a).rnd = s.rnd := rfl
@[simp] theorem State.setPC_inputNo (s : State) (a : Word) : (s.setPC a).inputNo = s.inputNo := rfl
@[simp] theorem State.setPC_events (s : State) (a : Word) : (s.setPC a).events = s.events := rfl
@[simp] theorem State.setPC_params (s : State) (a : Word) : (s.setPC a).params = s.params := rfl

@[simp] theorem State.getV_setPC (s : State) (a : Word) (r : Nib) : (s.setPC a).getV r = s.getV r := rfl
@[simp] theorem State.readByte_setPC (s : State) (a : Word) (c : Nat) : (s.setPC a).readByte c = s.readByte c := rfl
@[simp] theorem State.indexAddr_setPC (s : State) (a : Word) (c : Nat) : (s.setPC a).indexAddr c = s.indexAddr c := rfl

@[simp] theorem State.setDT_v (s : State) (b : Byte) : (s.setDT b).v = s.v := rfl
@[simp] theorem State.setDT_i (s : State) (b : Byte) : (s.setDT b).i = s.i := rfl
@[simp] theorem State.setDT_pc (s : State) (b : Byte) : (s.setDT b).pc = s.pc := rfl
@[simp] theorem State.setDT_stack (s : State) (b : Byte) : (s.setDT b).stack = s.stack := rfl
@[simp] theorem State.setDT_sp (s : State) (b : Byte) : (s.setDT b).sp = s.sp := rfl
@[simp] theorem State.setDT_dt (s : State) (b : Byte) : (s.setDT b).dt = b := rfl
@[simp] theorem State.setDT_st (s : State) (b : Byte) : (s.setDT b).st = s.st := rfl
@[simp] theorem State.setDT_fb (s : State) (b : Byte) : (s.setDT b).fb = s.fb := rfl
@[simp] theorem State.setDT_mem (s : State) (b : Byte) : (s.setDT b).mem = s.mem := rfl
@[simp] theorem State.setDT_keys (s : State) (b : Byte) : (s.setDT b).keys = s.keys := rfl
@[simp] theorem State.setDT_rnd (s : State) (b : Byte) : (s.setDT b).rnd = s.rnd := rfl
@[simp] theorem State.setDT_inputNo (s : State) (b : Byte) : (s.setDT b).inputNo = s.inputNo := rfl
@[simp] theorem State.setDT_events (s : State) (b : Byte) : (s.setDT b).events = s.events := rfl
@[simp] theorem State.setDT_params (s : State) (b : Byte) : (s.setDT b).params = s.params := rfl

@[simp] theorem State.getV_setDT (s : State) (b : Byte) (r : Nib) : (s.setDT b).getV r = s.getV r := rfl
@[simp] theorem State.readByte_setDT (s : State) (b : Byte) (c : Nat) : (s.setDT b).readByte c = s.readByte c := rfl
@[simp] theorem State.indexAddr_setDT (s : State) (b : Byte) (c : Nat) : (s.setDT b).indexAddr c = s.indexAddr c := rfl

@[simp] theorem State.setST_v (s : State) (b : Byte) : (s.setST b).v = s.v := rfl
@[simp] theorem State.setST_i (s : State) (b : Byte) : (s.setST b).i = s.i := rfl
@[simp] theorem State.setST_pc (s : State) (b : Byte) : (s.setST b).pc = s.pc := rfl
@[simp] theorem State.setST_stack (s : State) (b : Byte) : (s.setST b).stack = s.stack := rfl
@[simp] theorem State.setST_sp (s : State) (b : Byte) : (s.setST b).sp = s.sp := rfl
@[simp] theorem State.setST_dt (s : State) (b : Byte) : (s.setST b).dt = s.dt := rfl
@[simp] theorem State.setST_st (s : State) (b : Byte) : (s.setST b).st = b := rfl
@[simp] theorem State.setST_fb (s : State) (b : Byte) : (s.setST b).fb = s.fb := rfl
@[simp] theorem State.setST_mem (s : State) (b : Byte) : (s.setST b).mem = s.mem := rfl
@[simp] theorem State.setST_keys (s : State) (b : Byte) : (s.setST b).keys = s.keys := rfl
@[simp] theorem State.setST_rnd (s : State) (b : Byte) : (s.setST b).rnd = s.rnd := rfl
@[simp] theorem State.setST_inputNo (s : State) (b : Byte) : (s.setST b).inputNo = s.inputNo := rfl
@[simp] theorem State.setST_events (s : State) (b : Byte) : (s.setST b).events = s.events := rfl
@[simp] theorem State.setST_params (s : State) (b : Byte) : (s.setST b).params = s.params := rfl

@[simp] theorem State.getV_setST (s : State) (b : Byte) (r : Nib) : (s.setST b).getV r = s.getV r := rfl
@[simp] theorem State.readByte_setST (s : State) (b : Byte) (c : Nat) : (s.setST b).readByte c = s.readByte c := rfl
@[simp] theorem State.indexAddr_setST (s : State) (b : Byte) (c : Nat) : (s.setST b).indexAddr c = s.indexAddr c := rfl

@[simp] theorem State.writeByte_v (s : State) (a : Nat) (b : Byte) : (s.writeByte a b).v = s.v := rfl
@[simp] theorem State.writeByte_i (s : State) (a : Nat) (b : Byte) : (s.writeByte a b).i = s.i := rfl
@[simp] theorem State.writeByte_pc (s : State) (a : Nat) (b : Byte) : (s.writeByte a b).pc = s.pc := rfl
@[simp] theorem State.writeByte_stack (s : State) (a : Nat) (b : Byte) : (s.writeByte a b).stack = s.stack := rfl
@[simp] theorem State.writeByte_sp (s : State) (a : Nat) (b : Byte) : (s.writeByte a b).sp = s.sp := rfl
@[simp] theorem State.writeByte_dt (s : State) (a : Nat) (b : Byte) : (s.writeByte a b).dt = s.dt := rfl
@[simp] theorem State.writeByte_st (s : State) (a : Nat) (b : Byte) : (s.writeByte a b).st = s.st := rfl
@[simp] theorem State.writeByte_fb (s : State) (a : Nat) (b : Byte) : (s.writeByte a b).fb = s.fb := rfl
@[simp] theorem State.writeByte_mem (s : State) (a : Nat) (b : Byte) : (s.writeByte a b).mem = Memory.write s.params.font s.mem (maskAddr a) b := rfl
@[simp] theorem State.writeByte_keys (s : State) (a : Nat) (b : Byte) : (s.writeByte a b).keys = s.keys := rfl
@[simp] theorem State.writeByte_rnd (s : State) (a : Nat) (b : Byte) : (s.writeByte a b).rnd = s.rnd := rfl
@[simp] theorem State.writeByte_inputNo (s : State) (a : Nat) (b : Byte) : (s.writeByte a b).inputNo = s.inputNo := rfl
@[simp] theorem State.writeByte_events (s : State) (a : Nat) (b : Byte) : (s.writeByte a b).events = s.events := rfl
@[simp] theorem State.writeByte_params (s : State) (a : Nat) (b : Byte) : (s.writeByte a b).params = s.params := rfl

@[simp] theorem State.getV_writeByte (s : State) (a : Nat) (b : Byte) (r : Nib) : (s.writeByte a b).getV r = s.getV r := rfl
@[simp] theorem State.indexAddr_writeByte (s : State) (a : Nat) (b : Byte) (c : Nat) : (s.writeByte a b).indexAddr c = s.indexAddr c := rfl

@[simp] theorem State.setFB_v (s : State) (fb : Framebuffer) : (s.setFB fb).v = s.v := rfl
@[simp] theorem State.setFB_i (s : State) (fb : Framebuffer) : (s.setFB fb).i = s.i := rfl
@[simp] theorem State.setFB_pc (s : State) (fb : Framebuffer) : (s.setFB fb).pc = s.pc := rfl
@[simp] theorem State.setFB_stack (s : State) (fb : Framebuffer) : (s.setFB fb).stack = s.stack := rfl
@[simp] theorem State.setFB_sp (s : State) (fb : Framebuffer) : (s.setFB fb).sp = s.sp := rfl
@[simp] theorem State.setFB_dt (s : State) (fb : Framebuffer) : (s.setFB fb).dt = s.dt := rfl
@[simp] theorem State.setFB_st (s : State) (fb : Framebuffer) : (s.setFB fb).st = s.st := rfl
@[simp] theorem State.setFB_fb (s : State) (fb : Framebuffer) : (s.setFB fb).fb = fb := rfl
@[simp] theorem State.setFB_mem (s : State) (fb : Framebuffer) : (s.setFB fb).mem = s.mem := rfl
@[simp] theorem State.setFB_keys (s : State) (fb : Framebuffer) : (s.setFB fb).keys = s.keys := rfl
@[simp] theorem State.setFB_rnd (s : State) (fb : Framebuffer) : (s.setFB fb).rnd = s.rnd := rfl
@[simp] theorem State.setFB_inputNo (s : State) (fb : Framebuffer) : (s.setFB fb).inputNo = s.inputNo := rfl
@[simp] theorem State.setFB_events (s : State) (fb : Framebuffer) : (s.setFB fb).events = s.events := rfl
@[simp] theorem State.setFB_params (s : State) (fb : Framebuffer) : (s.setFB fb).params = s.params := rfl

@[simp] theorem State.getV_setFB (s : State) (fb : Framebuffer) (r : Nib) : (s.setFB fb).getV r = s.getV r := rfl
@[simp] theorem State.readByte_setFB (s : State) (fb : Framebuffer) (c : Nat) : (s.setFB fb).readByte c = s.readByte c := rfl
@[simp] theorem State.indexAddr_setFB (s : State) (fb : Framebuffer) (c : Nat) : (s.setFB fb).indexAddr c = s.indexAddr c := rfl

@[simp] theorem State.raise_v (s : State) (k : EventKind) (w : Word) : (s.raise k w).v = s.v := rfl
@[simp] theorem State.raise_i (s : State) (k : EventKind) (w : Word) : (s.raise k w).i = s.i := rfl
@[simp] theorem State.raise_pc (s : State) (k : EventKind) (w : Word) : (s.raise k w).pc = s.pc := rfl
@[simp] theorem State.raise_stack (s : State) (k : EventKind) (w : Word) : (s.raise k w).stack = s.stack := rfl
@[simp] theorem State.raise_sp (s : State) (k : EventKind) (w : Word) : (s.raise k w).sp = s.sp := rfl
@[simp] theorem State.raise_dt (s : State) (k : EventKind) (w : Word) : (s.raise k w).dt = s.dt := rfl
@[simp] theorem State.raise_st (s : State) (k : EventKind) (w : Word) : (s.raise k w).st = s.st := rfl
@[simp] theorem State.raise_fb (s : State) (k : EventKind) (w : Word) : (s.raise k w).fb = s.fb := rfl
@[simp] theorem State.raise_mem (s : State) (k : EventKind) (w : Word) : (s.raise k w).mem = s.mem := rfl
@[simp] theorem State.raise_keys (s : State) (k : EventKind) (w : Word) : (s.raise k w).keys = s.keys := rfl
@[simp] theorem State.raise_rnd (s : State) (k : EventKind) (w : Word) : (s.raise k w).rnd = s.rnd := rfl
@[simp] theorem State.raise_inputNo (s : State) (k : EventKind) (w : Word) : (s.raise k w).inputNo = s.inputNo := rfl
@[simp] theorem State.raise_events (s : State) (k : EventKind) (w : Word) : (s.raise k w).events = s.events ++ [⟨k, s.instrAddr, w⟩] := rfl
@[simp] theorem State.raise_params (s : State) (k : EventKind) (w : Word) : (s.raise k w).params = s.params := rfl

@[simp] theorem State.getV_raise (s : State) (k : EventKind) (w : Word) (r : Nib) : (s.raise k w).getV r = s.getV r := rfl
@[simp] theorem State.readByte_raise (s : State) (k : EventKind) (w : Word) (c : Nat) : (s.raise k w).readByte c = s.readByte c := rfl
@[simp] theorem State.indexAddr_raise (s : State) (k : EventKind) (w : Word) (c : Nat) : (s.raise k w).indexAddr c = s.indexAddr c := rfl

@[simp] theorem State.beginCycle_v (s : State) : (s.beginCycle).v = s.v := rfl
@[simp] theorem State.beginCycle_i (s : State) : (s.beginCycle).i = s.i := rfl
@[simp] theorem State.beginCycle_pc (s : State) : (s.beginCycle).pc = s.pc + 2#16 := rfl
@[simp] theorem State.beginCycle_stack (s : State) : (s.beginCycle).stack = s.stack := rfl
@[simp] theorem State.beginCycle_sp (s : State) : (s.beginCycle).sp = s.sp := rfl
@[simp] theorem State.beginCycle_dt (s : State) : (s.beginCycle).dt = s.dt := rfl
@[simp] theorem State.beginCycle_st (s : State) : (s.beginCycle).st = s.st := rfl
@[simp] theorem State.beginCycle_fb (s : State) : (s.beginCycle).fb = s.fb := rfl
@[simp] theorem State.beginCycle_mem (s : State) : (s.beginCycle).mem = s.mem := rfl
@[simp] theorem State.beginCycle_keys (s : State) : (s.beginCycle).keys = s.keys := rfl
@[simp] theorem State.beginCycle_rnd (s : State) : (s.beginCycle).rnd = s.rnd := rfl
@[simp] theorem State.beginCycle_inputNo (s : State) : (s.beginCycle).inputNo = s.inputNo := rfl
@[simp] theorem State.beginCycle_events (s : State) : (s.beginCycle).events = [] := rfl
@[simp] theorem State.beginCycle_params (s : State) : (s.beginCycle).params = s.params := rfl

@[simp] theorem State.getV_beginCycle (s : State) (r : Nib) : (s.beginCycle).getV r = s.getV r := rfl
@[simp] theorem State.readByte_beginCycle (s : State) (c : Nat) : (s.beginCycle).readByte c = s.readByte c := rfl
@[simp] theorem State.indexAddr_beginCycle (s : State) (c : Nat) : (s.beginCycle).indexAddr c = s.indexAddr c := rfl

@[simp] theorem State.endCycle_v (s : State) : (s.endCycle).v = s.v := rfl
@[simp] theorem State.endCycle_i (s : State) : (s.endCycle).i = s.i := rfl
@[simp] theorem State.endCycle_pc (s : State) : (s.endCycle).pc = s.pc := rfl
@[simp] theorem State.endCycle_stack (s : State) : (s.endCycle).stack = s.stack := rfl
@[simp] theorem State.endCycle_sp (s : State) : (s.endCycle).sp = s.sp := rfl
@[simp] theorem State.endCycle_dt (s : State) : (s.endCycle).dt = tickTimer s.dt := rfl
@[simp] theorem State.endCycle_st (s : State) : (s.endCycle).st = tickTimer s.st := rfl
@[simp] theorem State.endCycle_fb (s : State) : (s.endCycle).fb = s.fb := rfl
@[simp] theorem State.endCycle_mem (s : State) : (s.endCycle).mem = s.mem := rfl
@[simp] theorem State.endCycle_keys (s : State) : (s.endCycle).keys = Config.freeKeys s.inputNo := rfl
@[simp] theorem State.endCycle_rnd (s : State) : (s.endCycle).rnd = Config.freeRnd s.inputNo := rfl
@[simp] theorem State.endCycle_inputNo (s : State) : (s.endCycle).inputNo = s.inputNo + 1 := rfl
@[simp] theorem State.endCycle_events (s : State) : (s.endCycle).events = s.events := rfl
@[simp] theorem State.endCycle_params (s : State) : (s.endCycle).params = s.params := rfl

@[simp] theorem State.getV_endCycle (s : State) (r : Nib) : (s.endCycle).getV r = s.getV r := rfl
@[simp] theorem State.readByte_endCycle (s : State) (c : Nat) : (s.endCycle).readByte c = s.readByte c := rfl
@[simp] theorem State.indexAddr_endCycle (s : State) (c : Nat) : (s.endCycle).indexAddr c = s.indexAddr c := rfl

@[simp] theorem State.withInputs_v (s : State) (k : BitVec 16) (b : Byte) : (s.withInputs k b).v = s.v := rfl
@[simp] theorem State.withInputs_i (s : State) (k : BitVec 16) (b : Byte) : (s.withInputs k b).i = s.i := rfl
@[simp] theorem State.withInputs_pc (s : State) (k : BitVec 16) (b : Byte) : (s.withInputs k b).pc = s.pc := rfl
@[simp] theorem State.withInputs_stack (s : State) (k : BitVec 16) (b : Byte) : (s.withInputs k b).stack = s.stack := rfl
@[simp] theorem State.withInputs_sp (s : State) (k : BitVec 16) (b : Byte) : (s.withInputs k b).sp = s.sp := rfl
@[simp] theorem State.withInputs_dt (s : State) (k : BitVec 16) (b : Byte) : (s.withInputs k b).dt = s.dt := rfl
@[simp] theorem State.withInputs_st (s : State) (k : BitVec 16) (b : Byte) : (s.withInputs k b).st = s.st := rfl
@[simp] theorem State.withInputs_fb (s : State) (k : BitVec 16) (b : Byte) : (s.withInputs k b).fb = s.fb := rfl
@[simp] theorem State.withInputs_mem (s : State) (k : BitVec 16) (b : Byte) : (s.withInputs k b).mem = s.mem := rfl
@[simp] theorem State.withInputs_keys (s : State) (k : BitVec 16) (b : Byte) : (s.withInputs k b).keys = k := rfl
@[simp] theorem State.withInputs_rnd (s : State) (k : BitVec 16) (b : Byte) : (s.withInputs k b).rnd = b := rfl
@[simp] theorem State.withInputs_inputNo (s : State) (k : BitVec 16) (b : Byte) : (s.withInputs k b).inputNo = s.inputNo := rfl
@[simp] theorem State.withInputs_events (s : State) (k : BitVec 16) (b : Byte) : (s.withInputs k b).events = s.events := rfl
@[simp] theorem State.withInputs_params (s : State) (k : BitVec 16) (b : Byte) : (s.withInputs k b).params = s.params := rfl

@[simp] theorem State.getV_withInputs (s : State) (k : BitVec 16) (b : Byte) (r : Nib) : (s.withInputs k b).getV r = s.getV r := rfl
@[simp] theorem State.readByte_withInputs (s : State) (k : BitVec 16) (b : Byte) (c : Nat) : (s.withInputs k b).readByte c = s.readByte c := rfl
@[simp] theorem State.indexAddr_withInputs (s : State) (k : BitVec 16) (b : Byte) (c : Nat) : (s.withInputs k b).indexAddr c = s.indexAddr c := rfl

end Sys2Proof.Machine
end

