-- ==== Sys2Proof/Laws/Ops.lean ====
section
/-! SUPPORT. One lemma for each shared operation that says once everything it can do; proofs about instructions cite these
instead of unfolding the operation. -/

namespace Sys2Proof.Machine

/-- Register read after register write. -/
theorem State.getV_setV (s : State) (x r : Nib) (b : Byte) : (s.setV x b).getV r = if r = x then b else s.getV r := by
  by_cases h : r = x
  · subst h; simp [State.getV, State.setV]
  · have hne : x.toNat ≠ r.toNat := fun e => h (BitVec.eq_of_toNat_eq e).symm
    simp [State.getV, State.setV, h, hne]

/-- Byte read after byte write, both addresses masked (20_memory R52). -/
theorem State.readByte_writeByte (s : State) (a c : Nat) (b : Byte) :
    (s.writeByte a b).readByte c = if maskAddr c = maskAddr a then b else s.readByte c :=
  Memory.read_write s.params.font s.mem (maskAddr a) (maskAddr c) b

/-- A write through the mask keeps memory canonical. -/
theorem State.wf_writeByte {s : State} (h : Memory.wf s.params.font s.mem) (a : Nat) (b : Byte) :
    Memory.wf (s.writeByte a b).params.font (s.writeByte a b).mem := Memory.wf_write h (maskAddr_lt a) b

/-- Cell read after a flip. -/
theorem Framebuffer.cell_flip (fb : Framebuffer) (y y' : Fin 32) (x x' : Fin 64) :
    (fb.flip y x).cell y' x' = if y' = y ∧ x' = x then !fb.cell y x else fb.cell y' x' := by
  by_cases hy : y' = y
  · subst hy
    by_cases hx : x' = x
    · subst hx; simp [Framebuffer.flip, Framebuffer.cell]
    · have : x.val ≠ x'.val := fun e => hx (Fin.ext e).symm
      simp [Framebuffer.flip, Framebuffer.cell, hx, this]
  · have : y.val ≠ y'.val := fun e => hy (Fin.ext e).symm
    simp [Framebuffer.flip, Framebuffer.cell, hy, this]

@[simp] theorem Framebuffer.cell_blank (y : Fin 32) (x : Fin 64) : Framebuffer.blank.cell y x = false := by
  simp [Framebuffer.blank, Framebuffer.cell]

/-- The address of the executing instruction, right after the advance, is where it was fetched. -/
@[simp] theorem State.instrAddr_beginCycle (s : State) : s.beginCycle.instrAddr = s.pc := by
  simp [State.instrAddr]

/-- A push below 16 addresses. -/
theorem State.push_eq_some (s : State) (a : Word) (h : s.sp.val < 16) :
    s.push a = some { s with stack := s.stack.set s.sp.val a h, sp := ⟨s.sp.val + 1, by omega⟩ } := by
  simp [State.push, h]

/-- A push on a full stack is refused. -/
theorem State.push_eq_none (s : State) (a : Word) (h : s.sp.val = 16) : s.push a = none := by
  simp [State.push, h]

/-- A pop of an empty stack is refused. -/
theorem State.pop_eq_none (s : State) (h : s.sp.val = 0) : s.pop = none := by
  simp [State.pop, h]

/-- A pop takes the last address pushed and leaves its slot. -/
theorem State.pop_eq_some (s : State) (h : s.sp.val ≠ 0) :
    s.pop = some (s.stack[s.sp.val - 1]'(by omega), { s with sp := ⟨s.sp.val - 1, by omega⟩ }) := by
  simp [State.pop, h]

/-- A skip writes PC and nothing else. -/
theorem State.skipIf_eq (s : State) (c : Bool) : s.skipIf c = s.setPC (if c then s.pc + 2#16 else s.pc) := by
  cases c <;> rfl

/-- `WriteFlagged` when the destination is not VF: both orders give result and flag (42_alu R148). -/
theorem State.getV_writeFlagged (s : State) (x r : Nib) (f : Bool) (b : Byte) (hx : x ≠ regVF) :
    (s.writeFlagged x f b).getV r = if r = x then b else if r = regVF then flagByte f else s.getV r := by
  unfold State.writeFlagged
  split <;> simp only [State.getV_setV]
  by_cases h : r = x
  · simp [h, hx]
  · simp [h]

/-- `WriteFlagged` into VF: what was written last (42_alu R148). -/
theorem State.getV_writeFlagged_vf (s : State) (r : Nib) (f : Bool) (b : Byte) :
    (s.writeFlagged regVF f b).getV r =
      if r = regVF then (if s.params.flagOrder = .flagFirst then b else flagByte f) else s.getV r := by
  unfold State.writeFlagged
  split <;> rename_i h <;> simp only [State.getV_setV, h] <;> by_cases hr : r = regVF <;> simp [hr]

/-- `WriteFlagged` writes registers and nothing else. -/
theorem State.writeFlagged_frame (s : State) (x : Nib) (f : Bool) (b : Byte) :
    ∃ v, s.writeFlagged x f b = { s with v := v } := by
  unfold State.writeFlagged
  split <;> exact ⟨_, rfl⟩

/-- A logic operation's writes: the result, and VF by `LOGIC_VF` (42_alu R144). -/
theorem State.getV_writeLogic (s : State) (x r : Nib) (b : Byte) :
    (s.writeLogic x b).getV r =
      if r = regVF ∧ s.params.logicVF = .clear then 0#8 else if r = x then b else s.getV r := by
  unfold State.writeLogic
  split <;> rename_i h <;> simp [State.getV_setV, h]

/-- A logic operation writes registers and nothing else. -/
theorem State.writeLogic_frame (s : State) (x : Nib) (b : Byte) : ∃ v, s.writeLogic x b = { s with v := v } := by
  unfold State.writeLogic
  split <;> exact ⟨_, rfl⟩

/-- `MEM_I_INCREMENT` writes I and nothing else (44_index_memory R197). -/
theorem State.bumpI_eq (s : State) (x : Nib) :
    s.bumpI x = s.setI (if s.params.memIIncrement = .xPlus1 then s.i + x.setWidth 16 + 1#16 else s.i) := by
  unfold State.bumpI
  split <;> rename_i h <;> simp [h, State.setI]

/-- The stores of a register dump write memory and nothing else. -/
theorem State.storeRegs_frame (s : State) (n : Nat) : ∃ m, s.storeRegs n = { s with mem := m } := by
  induction n with
  | zero => exact ⟨s.mem, rfl⟩
  | succ n ih =>
    obtain ⟨m, hm⟩ := ih
    have : s.storeRegs (n + 1) = (s.storeRegs n).writeByte (s.indexAddr n) (s.getV (BitVec.ofNat 4 n)) := by
      simp [State.storeRegs, List.range_succ]
    exact ⟨_, by rw [this, hm]; rfl⟩

theorem State.storeRegs_succ (s : State) (n : Nat) :
    s.storeRegs (n + 1) = (s.storeRegs n).writeByte (s.indexAddr n) (s.getV (BitVec.ofNat 4 n)) := by
  simp [State.storeRegs, List.range_succ]

/-- A register dump keeps memory canonical. -/
theorem State.wf_storeRegs {s : State} (h : Memory.wf s.params.font s.mem) (n : Nat) :
    Memory.wf s.params.font (s.storeRegs n).mem := by
  induction n with
  | zero => exact h
  | succ n ih =>
    obtain ⟨m, hm⟩ := s.storeRegs_frame n
    rw [State.storeRegs_succ]
    have := State.wf_writeByte (s := s.storeRegs n) (by rw [hm]; rw [hm] at ih; exact ih) (s.indexAddr n)
      (s.getV (BitVec.ofNat 4 n))
    rw [State.writeByte_params, hm] at this
    rw [hm]; exact this

theorem State.loadRegs_succ (s : State) (n : Nat) :
    s.loadRegs (n + 1) = (s.loadRegs n).setV (BitVec.ofNat 4 n) (s.readByte (s.indexAddr n)) := by
  simp [State.loadRegs, List.range_succ]

/-- The loads of a register load write registers and nothing else. -/
theorem State.loadRegs_frame (s : State) (n : Nat) : ∃ v, s.loadRegs n = { s with v := v } := by
  induction n with
  | zero => exact ⟨s.v, rfl⟩
  | succ n ih =>
    obtain ⟨v, hv⟩ := ih
    exact ⟨_, by rw [State.loadRegs_succ, hv]; rfl⟩

/-- The lowest key: it is down, and no key below it is; or none of the sixteen is (45_timers_keys R217). -/
theorem State.lowestKey_some {s : State} {k : Nat} (h : s.lowestKey = some k) :
    k < 16 ∧ s.keyDown k = true ∧ ∀ j, j < k → s.keyDown j = false := by
  rw [State.lowestKey, List.find?_range_eq_some] at h
  exact ⟨by simpa using h.2.1, h.1, fun j hj => by simpa using h.2.2 j hj⟩

theorem State.lowestKey_none {s : State} (h : s.lowestKey = none) (k : Nat) (hk : k < 16) : s.keyDown k = false := by
  rw [State.lowestKey, List.find?_range_eq_none] at h
  simpa using h k hk

end Sys2Proof.Machine
end

