-- ==== Sys2Proof/Laws/Frames.lean ====
section
/-! SUPPORT. The frame of each named operation in the terms of Safety.lean, how frames compose, and the values a register
dump, a register load, a sprite row and a program image leave. -/

namespace Sys2Proof.Machine

/-- Nothing changes from a state to itself. -/
theorem unchanged_refl (but : List Part) (s : State) : Unchanged but s s := by
  intro p _; cases p <;> simp [Part.same]

/-- Frames compose. -/
theorem Unchanged.trans {b c : List Part} {s t u : State} (h : Unchanged b s t) (h' : Unchanged c t u) :
    Unchanged (b ++ c) s u := by
  intro p hp
  have h1 := h p fun hh => hp (by simp [hh])
  have h2 := h' p fun hh => hp (by simp [hh])
  cases p <;> simp_all [Part.same]

/-- A frame holds with more parts let go. -/
theorem Unchanged.mono {b c : List Part} {s t : State} (h : Unchanged b s t) (hl : b ⊆ c) : Unchanged c s t :=
  fun p hp => h p fun hh => hp (hl hh)

theorem unchanged_setV (s : State) (x : Nib) (b : Byte) : Unchanged [.v] s (s.setV x b) := by
  intro p hp; cases p <;> simp at hp <;> simp [Part.same]

theorem unchanged_setPC (s : State) (a : Word) : Unchanged [.pc] s (s.setPC a) := by
  intro p hp; cases p <;> simp at hp <;> simp [Part.same]

theorem unchanged_setI (s : State) (a : Word) : Unchanged [.i] s (s.setI a) := by
  intro p hp; cases p <;> simp at hp <;> simp [Part.same]

theorem unchanged_setDT (s : State) (b : Byte) : Unchanged [.dt] s (s.setDT b) := by
  intro p hp; cases p <;> simp at hp <;> simp [Part.same]

theorem unchanged_setST (s : State) (b : Byte) : Unchanged [.st] s (s.setST b) := by
  intro p hp; cases p <;> simp at hp <;> simp [Part.same]

theorem unchanged_setFB (s : State) (fb : Framebuffer) : Unchanged [.fb] s (s.setFB fb) := by
  intro p hp; cases p <;> simp at hp <;> simp [Part.same]

theorem unchanged_raise (s : State) (k : EventKind) (w : Word) : Unchanged [.events] s (s.raise k w) := by
  intro p hp; cases p <;> simp at hp <;> simp [Part.same]

/-- Whatever is written to the registers, nothing else changes. -/
theorem unchanged_v (s : State) (v : Vector Byte 16) : Unchanged [.v] s { s with v := v } := by
  intro p hp; cases p <;> simp at hp <;> simp [Part.same, State.readByte]

/-- Whatever is written to memory, nothing else changes. -/
theorem unchanged_mem (s : State) (m : Memory) : Unchanged [.mem] s { s with mem := m } := by
  intro p hp; cases p <;> simp at hp <;> simp [Part.same, State.getV]

theorem regsSame_setV (s : State) (x : Nib) (b : Byte) : RegsSame [x] s (s.setV x b) := by
  intro r hr; simp at hr; simp [State.getV_setV, hr]

/-- `MEM_I_INCREMENT` writes I and nothing else. -/
theorem unchanged_bumpI (s : State) (x : Nib) : Unchanged [.i] s (s.bumpI x) := by
  rw [State.bumpI_eq]; exact unchanged_setI _ _

/-- What a register dump stores: the first `n` registers from I on, and no other byte (44_index_memory R195). -/
theorem State.storeRegs_bytes (s : State) (n : Nat) (hn : n ≤ 16) :
    BytesSame (s.window n) s (s.storeRegs n) ∧
    ∀ r : Nib, r.toNat < n → (s.storeRegs n).readByte (s.i.toNat + r.toNat) = s.getV r := by
  induction n with
  | zero => exact ⟨fun _ _ => rfl, fun r h => by omega⟩
  | succ n ih =>
    obtain ⟨ih1, ih2⟩ := ih (by omega)
    rw [State.storeRegs_succ]
    constructor
    · intro a ha
      have h1 : maskAddr a ≠ maskAddr (s.indexAddr n) := fun e => ha (by
        simp only [State.window, List.mem_map, List.mem_range]; exact ⟨n, by omega, e.symm⟩)
      have h2 : maskAddr a ∉ s.window n := fun e => ha (by
        simp only [State.window, List.mem_map, List.mem_range] at *
        obtain ⟨k, hk, e⟩ := e
        exact ⟨k, by omega, e⟩)
      rw [State.readByte_writeByte, if_neg h1, ih1 a h2]
    · intro r hr
      rw [State.readByte_writeByte]
      by_cases h : r.toNat = n
      · have : BitVec.ofNat 4 n = r := by rw [← h]; simp
        simp [State.indexAddr, h, this]
      · have hh : maskAddr (s.i.toNat + r.toNat) ≠ maskAddr (s.indexAddr n) := by
          simp only [maskAddr_eq_mod, State.indexAddr]; omega
        rw [if_neg hh]; exact ih2 r (by omega)

/-- What a register load leaves in each register (44_index_memory R196). -/
theorem State.getV_loadRegs (s : State) (n : Nat) (hn : n ≤ 16) (r : Nib) :
    (s.loadRegs n).getV r = if r.toNat < n then s.readByte (s.i.toNat + r.toNat) else s.getV r := by
  induction n generalizing r with
  | zero => rfl
  | succ n ih =>
    rw [State.loadRegs_succ, State.getV_setV, ih (by omega)]
    by_cases h : r.toNat = n
    · have : r = BitVec.ofNat 4 n := by rw [← h]; simp
      rw [if_pos this, if_pos (by omega), ← h]; rfl
    · have : r ≠ BitVec.ofNat 4 n := fun e => h (by rw [e]; simp; omega)
      rw [if_neg this]
      by_cases h2 : r.toNat < n
      · rw [if_pos h2, if_pos (by omega)]
      · rw [if_neg h2, if_neg (by omega)]

/-- What one sprite bit does: a flip and its collision, or nothing (43_display R172 to R174). -/
theorem drawBit_of_lt (cv : Canvas) (yy : Fin 32) (xx : Nat) (bit : Bool) (h : xx < 64) :
    drawBit cv yy xx bit = if bit then (cv.1.flip yy ⟨xx, h⟩, cv.2 || cv.1.cell yy ⟨xx, h⟩) else cv := by
  simp [drawBit, h]

/-- A sprite bit past column 63 is dropped (43_display R173). -/
theorem drawBit_of_ge (cv : Canvas) (yy : Fin 32) (xx : Nat) (bit : Bool) (h : 64 ≤ xx) : drawBit cv yy xx bit = cv := by
  rw [drawBit, dif_neg (by omega)]

/-- A sprite of `n + 1` rows is one of `n` rows and then its last row (43_display R172). -/
theorem State.drawSprite_succ (s : State) (y0 x0 n : Nat) :
    s.drawSprite y0 x0 (n + 1) = drawRow (s.drawSprite y0 x0 n) (wrapRow y0 n) x0 (s.readByte (s.indexAddr n)) := by
  simp [State.drawSprite, List.range_succ]

/-- What is covered by `n + 1` sprite rows is covered by the first `n` or by the last. -/
theorem State.covers_succ (s : State) (x0 y0 n : Nat) (yy : Fin 32) (xx : Fin 64) :
    s.covers x0 y0 (n + 1) yy xx = (s.covers x0 y0 n yy xx ||
      (decide ((y0 + n) % 32 = yy.val ∧ x0 ≤ xx.val ∧ xx.val < x0 + 8) &&
        (s.readByte (s.i.toNat + n)).getLsbD (7 - (xx.val - x0)))) := by
  simp [State.covers, List.range_succ]

/-- What placing bytes from `a` on leaves in memory below 4096. -/
theorem State.readByte_placeBytes (l : List Byte) (s : State) (a c : Nat) (h : a + l.length ≤ 4096) (hc : c < 4096) :
    (s.placeBytes a l).readByte c = if hh : a ≤ c ∧ c < a + l.length then l[c - a]'(by omega) else s.readByte c := by
  induction l generalizing s a with
  | nil => rw [dif_neg (by simp)]; rfl
  | cons b l ih =>
    simp only [List.length_cons] at h
    rw [State.placeBytes, ih _ _ (by omega), State.readByte_writeByte]
    have m1 : maskAddr c = c := by rw [maskAddr_eq_mod]; omega
    have m2 : maskAddr a = a := by rw [maskAddr_eq_mod]; omega
    rw [m1, m2]
    by_cases h1 : c = a
    · subst h1; simp
    · by_cases h2 : a + 1 ≤ c ∧ c < a + 1 + l.length
      · have h3 : a ≤ c ∧ c < a + (b :: l).length := by simp; omega
        rw [dif_pos h2, dif_pos h3]
        have : c - a = c - (a + 1) + 1 := by omega
        simp [this]
      · have h3 : ¬ (a ≤ c ∧ c < a + (b :: l).length) := by simp; omega
        rw [dif_neg h2, dif_neg h3, if_neg h1]

/-- Placing bytes writes memory and nothing else. -/
theorem State.placeBytes_frame (l : List Byte) (s : State) (a : Nat) : ∃ m, s.placeBytes a l = { s with mem := m } := by
  induction l generalizing s a with
  | nil => exact ⟨_, rfl⟩
  | cons b l ih => obtain ⟨m, hm⟩ := ih (s.writeByte a b) (a + 1); exact ⟨m, by rw [State.placeBytes, hm]; rfl⟩

end Sys2Proof.Machine
end

