-- ==== Sys2Proof/Laws/PerInstr.lean ====
section
/-! SUPPORT. The family RowMatch: every instruction's word has the fixed bits of one row of the opcode map (30_encoding R76),
and that row reads the instruction back from it. One lemma per constructor. -/

namespace Sys2Proof.Laws.RowMatch

open Sys2Proof Sys2Proof.Machine

/-- The word of `i` matches row `k` of the opcode map, and the row's fields of it are the operands of `i`. -/
def AtRow (i : Instr) (k : Nat) : Prop :=
  ∃ r, opcodeMap[k]? = some r ∧ encode i &&& r.mask = r.pattern ∧ r.make (encode i) = i

/-- The word of `i` matches some row of the opcode map, which reads `i` back. -/
def Statement (i : Instr) : Prop := ∃ k, AtRow i k

section
variable (op x y n : Nib) (nn : Byte) (nnn : Addr)

/-- The primary opcode of a word written as opcode and address. -/
theorem op_addr : (op ++ nnn : BitVec 16) &&& 0xF000#16 = op ++ 0x000#12 := by
  apply BitVec.eq_of_getLsbD_eq; intro i hi; rw [BitVec.getLsbD_and, bit_addr, bit_addr]
  interval_cases i <;> simp

/-- The primary opcode of a word written with a low byte. -/
theorem op_imm : (op ++ x ++ nn : BitVec 16) &&& 0xF000#16 = op ++ 0x0#4 ++ 0x00#8 := by
  apply BitVec.eq_of_getLsbD_eq; intro i hi; rw [BitVec.getLsbD_and, bit_imm, bit_imm]
  interval_cases i <;> simp

/-- The primary opcode and the low byte. -/
theorem op_nn_imm : (op ++ x ++ nn : BitVec 16) &&& 0xF0FF#16 = op ++ 0x0#4 ++ nn := by
  apply BitVec.eq_of_getLsbD_eq; intro i hi; rw [BitVec.getLsbD_and, bit_imm, bit_imm]
  interval_cases i <;> simp

/-- The primary opcode of a word written as four nibbles. -/
theorem op_nibs : (op ++ x ++ y ++ n : BitVec 16) &&& 0xF000#16 = op ++ 0x0#4 ++ 0x0#4 ++ 0x0#4 := by
  apply BitVec.eq_of_getLsbD_eq; intro i hi; rw [BitVec.getLsbD_and, bit_nibs, bit_nibs]
  interval_cases i <;> simp

/-- The primary opcode and the low nibble. -/
theorem op_n_nibs : (op ++ x ++ y ++ n : BitVec 16) &&& 0xF00F#16 = op ++ 0x0#4 ++ 0x0#4 ++ n := by
  apply BitVec.eq_of_getLsbD_eq; intro i hi; rw [BitVec.getLsbD_and, bit_nibs, bit_nibs]
  interval_cases i <;> simp

end

theorem cls (ign : Nib) : Statement (.cls ign) :=
  ⟨0, _, rfl, op_nn_imm .., by simp only [encode, fieldX_imm]⟩

theorem ret (ign : Nib) : Statement (.ret ign) :=
  ⟨1, _, rfl, op_nn_imm .., by simp only [encode, fieldX_imm]⟩

theorem sys (nnn : Addr) : Statement (.sys nnn) :=
  ⟨2, _, rfl, op_addr .., by simp only [encode, fieldNNN_addr]⟩

theorem jp (nnn : Addr) : Statement (.jp nnn) :=
  ⟨3, _, rfl, op_addr .., by simp only [encode, fieldNNN_addr]⟩

theorem call (nnn : Addr) : Statement (.call nnn) :=
  ⟨4, _, rfl, op_addr .., by simp only [encode, fieldNNN_addr]⟩

theorem seImm (x : Nib) (nn : Byte) : Statement (.seImm x nn) :=
  ⟨5, _, rfl, op_imm .., by simp only [encode, fieldX_imm, fieldNN_imm]⟩

theorem sneImm (x : Nib) (nn : Byte) : Statement (.sneImm x nn) :=
  ⟨6, _, rfl, op_imm .., by simp only [encode, fieldX_imm, fieldNN_imm]⟩

theorem seReg (x : Nib) (y : Nib) (ign : Nib) : Statement (.seReg x y ign) :=
  ⟨7, _, rfl, op_nibs .., by simp only [encode, fieldX_nibs, fieldY_nibs, fieldN_nibs]⟩

theorem ldImm (x : Nib) (nn : Byte) : Statement (.ldImm x nn) :=
  ⟨8, _, rfl, op_imm .., by simp only [encode, fieldX_imm, fieldNN_imm]⟩

theorem addImm (x : Nib) (nn : Byte) : Statement (.addImm x nn) :=
  ⟨9, _, rfl, op_imm .., by simp only [encode, fieldX_imm, fieldNN_imm]⟩

theorem ldReg (x : Nib) (y : Nib) : Statement (.ldReg x y) :=
  ⟨10, _, rfl, op_n_nibs .., by simp only [encode, fieldX_nibs, fieldY_nibs]⟩

theorem orReg (x : Nib) (y : Nib) : Statement (.orReg x y) :=
  ⟨11, _, rfl, op_n_nibs .., by simp only [encode, fieldX_nibs, fieldY_nibs]⟩

theorem andReg (x : Nib) (y : Nib) : Statement (.andReg x y) :=
  ⟨12, _, rfl, op_n_nibs .., by simp only [encode, fieldX_nibs, fieldY_nibs]⟩

theorem xorReg (x : Nib) (y : Nib) : Statement (.xorReg x y) :=
  ⟨13, _, rfl, op_n_nibs .., by simp only [encode, fieldX_nibs, fieldY_nibs]⟩

theorem addReg (x : Nib) (y : Nib) : Statement (.addReg x y) :=
  ⟨14, _, rfl, op_n_nibs .., by simp only [encode, fieldX_nibs, fieldY_nibs]⟩

theorem subReg (x : Nib) (y : Nib) : Statement (.subReg x y) :=
  ⟨15, _, rfl, op_n_nibs .., by simp only [encode, fieldX_nibs, fieldY_nibs]⟩

theorem shr (x : Nib) (y : Nib) : Statement (.shr x y) :=
  ⟨16, _, rfl, op_n_nibs .., by simp only [encode, fieldX_nibs, fieldY_nibs]⟩

theorem subnReg (x : Nib) (y : Nib) : Statement (.subnReg x y) :=
  ⟨17, _, rfl, op_n_nibs .., by simp only [encode, fieldX_nibs, fieldY_nibs]⟩

theorem shl (x : Nib) (y : Nib) : Statement (.shl x y) :=
  ⟨18, _, rfl, op_n_nibs .., by simp only [encode, fieldX_nibs, fieldY_nibs]⟩

theorem sneReg (x : Nib) (y : Nib) (ign : Nib) : Statement (.sneReg x y ign) :=
  ⟨19, _, rfl, op_nibs .., by simp only [encode, fieldX_nibs, fieldY_nibs, fieldN_nibs]⟩

theorem ldI (nnn : Addr) : Statement (.ldI nnn) :=
  ⟨20, _, rfl, op_addr .., by simp only [encode, fieldNNN_addr]⟩

theorem jpV0 (nnn : Addr) : Statement (.jpV0 nnn) :=
  ⟨21, _, rfl, op_addr .., by simp only [encode, fieldNNN_addr]⟩

theorem rnd (x : Nib) (nn : Byte) : Statement (.rnd x nn) :=
  ⟨22, _, rfl, op_imm .., by simp only [encode, fieldX_imm, fieldNN_imm]⟩

theorem drw (x : Nib) (y : Nib) (n : Nib) : Statement (.drw x y n) :=
  ⟨23, _, rfl, op_nibs .., by simp only [encode, fieldX_nibs, fieldY_nibs, fieldN_nibs]⟩

theorem skp (x : Nib) : Statement (.skp x) :=
  ⟨24, _, rfl, op_nn_imm .., by simp only [encode, fieldX_imm]⟩

theorem sknp (x : Nib) : Statement (.sknp x) :=
  ⟨25, _, rfl, op_nn_imm .., by simp only [encode, fieldX_imm]⟩

theorem ldVxDT (x : Nib) : Statement (.ldVxDT x) :=
  ⟨26, _, rfl, op_nn_imm .., by simp only [encode, fieldX_imm]⟩

theorem ldVxK (x : Nib) : Statement (.ldVxK x) :=
  ⟨27, _, rfl, op_nn_imm .., by simp only [encode, fieldX_imm]⟩

theorem ldDTVx (x : Nib) : Statement (.ldDTVx x) :=
  ⟨28, _, rfl, op_nn_imm .., by simp only [encode, fieldX_imm]⟩

theorem ldSTVx (x : Nib) : Statement (.ldSTVx x) :=
  ⟨29, _, rfl, op_nn_imm .., by simp only [encode, fieldX_imm]⟩

theorem addI (x : Nib) : Statement (.addI x) :=
  ⟨30, _, rfl, op_nn_imm .., by simp only [encode, fieldX_imm]⟩

theorem ldF (x : Nib) : Statement (.ldF x) :=
  ⟨31, _, rfl, op_nn_imm .., by simp only [encode, fieldX_imm]⟩

theorem ldB (x : Nib) : Statement (.ldB x) :=
  ⟨32, _, rfl, op_nn_imm .., by simp only [encode, fieldX_imm]⟩

theorem dump (x : Nib) : Statement (.dump x) :=
  ⟨33, _, rfl, op_nn_imm .., by simp only [encode, fieldX_imm]⟩

theorem load (x : Nib) : Statement (.load x) :=
  ⟨34, _, rfl, op_nn_imm .., by simp only [encode, fieldX_imm]⟩

end Sys2Proof.Laws.RowMatch
end

