-- ==== Sys2Proof/Tests/Slice0.lean ====
section
/-! SUPPORT. Tests with results from spec/95_test_vectors.md (named E, T or P there), decoding of words written out from
spec/30_encoding.md R76, ill-formed terms, and a witness for the hypotheses of each statement that has any. -/

set_option maxRecDepth 8000

namespace Sys2Proof.Tests

open Sys2Proof Sys2Proof.Machine

/-! ### Helpers -/

/-- The spec's default parameters with SYS_REPORTS false. -/
def p0 : Params where
  shiftSource := .vx
  flagOrder := .flagFirst
  logicVF := .unchanged
  memIIncrement := .none
  font := defaultFont
  sysReports := false

/-- The other value of every two-valued parameter. -/
def p1 : Params where
  shiftSource := .vy
  flagOrder := .resultFirst
  logicVF := .clear
  memIIncrement := .xPlus1
  font := defaultFont
  sysReports := true

/-- "Start" of 95_test_vectors: reset, no key down, RND 0. -/
def s0 : State := State.resetWith p0 0 0 0

/-- "Start" under the other parameters. -/
def s1 : State := State.resetWith p1 0 0 0

/-- Set general registers. -/
def regs (s : State) (l : List (Nib × Byte)) : State := l.foldl (fun s r => s.setV r.1 r.2) s

/-- Store bytes from an address on. -/
def bytes (s : State) (a : Nat) (l : List Byte) : State := s.placeBytes a l

/-- Turn one cell on. -/
def lit (s : State) (x : Fin 64) (y : Fin 32) : State := s.setFB (s.fb.flip y x)

/-- A stack of `n` addresses, slot `k` holding 0x300 + 2k (vector T6). -/
def deep (s : State) (n : Fin 17) : State := { s with stack := Vector.ofFn fun k => BitVec.ofNat 16 (0x300 + 2 * k.val), sp := n }

/-- Place a word at PC and look at the state one step later. -/
def see {α : Type} (s : State) (w : Nat) (f : State → α) : Option α :=
  match step (s.withFetchWord 16 w) with
  | .next t => some (f t)
  | .fault _ => none
  | .refused _ => none

/-- A state whose next word is `w`. -/
def holding (s : State) (w : Nat) : State := s.withFetchWord 16 w

/-! ### Ill-formed terms: one for each check of `Instr.wellFormed` -/

theorem test_sys_of_cls_word_is_ill_formed : (Instr.sys 0x1E0).wellFormed = false := by decide
theorem test_sys_of_ret_word_is_ill_formed : (Instr.sys 0x0EE).wellFormed = false := by decide
theorem test_other_sys_is_well_formed : (Instr.sys 0x0E1).wellFormed = true := by decide

/-! ### Decoding: every row of 30_encoding R76, words written out from its pattern -/

theorem test_decode_bit_by_bit :
    decode 0b0000000011101110#16 = .ok (.ret 0) ∧ decode 0b0010001100000100#16 = .ok (.call 0x304) ∧
    decode 0b0110101001011100#16 = .ok (.ldImm 10 0x5C) ∧ decode 0b1000000100100101#16 = .ok (.subReg 1 2) ∧
    decode 0b1101000100100101#16 = .ok (.drw 1 2 5) ∧ decode 0b1110000110011110#16 = .ok (.skp 1) ∧
    decode 0b1111001100110011#16 = .ok (.ldB 3) := by decide

theorem test_decode_control :
    decode 0x00E0 = .ok (.cls 0) ∧ decode 0x00EE = .ok (.ret 0) ∧ decode 0x0123 = .ok (.sys 0x123) ∧
    decode 0x1234 = .ok (.jp 0x234) ∧ decode 0x2300 = .ok (.call 0x300) ∧ decode 0x3342 = .ok (.seImm 3 0x42) ∧
    decode 0x4342 = .ok (.sneImm 3 0x42) ∧ decode 0x5120 = .ok (.seReg 1 2 0) ∧ decode 0x9127 = .ok (.sneReg 1 2 7) ∧
    decode 0xB300 = .ok (.jpV0 0x300) := by decide

theorem test_decode_alu :
    decode 0x6A5C = .ok (.ldImm 10 0x5C) ∧ decode 0x7101 = .ok (.addImm 1 1) ∧ decode 0x8120 = .ok (.ldReg 1 2) ∧
    decode 0x8121 = .ok (.orReg 1 2) ∧ decode 0x8122 = .ok (.andReg 1 2) ∧ decode 0x8123 = .ok (.xorReg 1 2) ∧
    decode 0x8124 = .ok (.addReg 1 2) ∧ decode 0x8125 = .ok (.subReg 1 2) ∧ decode 0x8126 = .ok (.shr 1 2) ∧
    decode 0x8127 = .ok (.subnReg 1 2) ∧ decode 0x812E = .ok (.shl 1 2) ∧ decode 0xC30F = .ok (.rnd 3 0x0F) := by decide

theorem test_decode_display_index_timers_keys :
    decode 0xD125 = .ok (.drw 1 2 5) ∧ decode 0xA123 = .ok (.ldI 0x123) ∧ decode 0xE19E = .ok (.skp 1) ∧
    decode 0xE1A1 = .ok (.sknp 1) ∧ decode 0xF407 = .ok (.ldVxDT 4) ∧ decode 0xF30A = .ok (.ldVxK 3) ∧
    decode 0xF415 = .ok (.ldDTVx 4) ∧ decode 0xF418 = .ok (.ldSTVx 4) ∧ decode 0xF21E = .ok (.addI 2) ∧
    decode 0xF029 = .ok (.ldF 0) ∧ decode 0xF333 = .ok (.ldB 3) ∧ decode 0xF255 = .ok (.dump 2) ∧
    decode 0xF265 = .ok (.load 2) := by decide

/-- T87 to T94. -/
theorem test_decode_unknown :
    decode 0x8008 = .error (.unknownInstruction 0x8008) ∧ decode 0x800D = .error (.unknownInstruction 0x800D) ∧
    decode 0x800F = .error (.unknownInstruction 0x800F) ∧ decode 0xE000 = .error (.unknownInstruction 0xE000) ∧
    decode 0xE19F = .error (.unknownInstruction 0xE19F) ∧ decode 0xF000 = .error (.unknownInstruction 0xF000) ∧
    decode 0xF0FF = .error (.unknownInstruction 0xF0FF) ∧ decode 0xFFFF = .error (.unknownInstruction 0xFFFF) ∧
    decodeBytes [0x12] = .error .tooShort := by decide

/-- The first word of the bytes of E6, and the bytes after it. -/
theorem test_decode_bytes : decodeBytes [0x22, 0x06, 0x12, 0x02] = .ok (.call 0x206, [0x12, 0x02]) := by decide

/-- The program of P1 and its bytes. -/
theorem test_assemble_P1 :
    assembleProgram [⟨.ld, [.reg 0, .byte 0]⟩, ⟨.ld, [.reg 1, .byte 5]⟩, ⟨.add, [.reg 0, .byte 1]⟩,
      ⟨.se, [.reg 0, .byte 5]⟩, ⟨.jp, [.addr 0x204]⟩, ⟨.jp, [.addr 0x20A]⟩] =
    some [0x60, 0x00, 0x61, 0x05, 0x70, 0x01, 0x30, 0x05, 0x12, 0x04, 0x12, 0x0A] := by decide

/-! ### Control transfer -/

/-- T4. -/
theorem test_ret : see { s0 with pc := 0x300, sp := 1, stack := s0.stack.set 0 0x202 } 0x00EE
    (fun t => (t.pc, t.sp, t.stack[0], t.events)) = some (0x202, 0, 0x202, []) := by decide
/-- T5. -/
theorem test_ret_underflow : see s0 0x00EE (fun t => (t.pc, t.sp, t.events)) =
    some (0x202, 0, [⟨.stackUnderflow, 0x200, 0x00EE⟩]) := by decide
/-- T7, SYS_REPORTS false. -/
theorem test_sys_silent : see s0 0x0123 (fun t => (t.pc, t.events)) = some (0x202, []) := by decide
/-- T7, SYS_REPORTS true. -/
theorem test_sys_reports : see s1 0x0123 (fun t => (t.pc, t.events)) =
    some (0x202, [⟨.unknownInstruction, 0x200, 0x0123⟩]) := by decide
/-- T1, T2. -/
theorem test_jp : see s0 0x1234 State.pc = some 0x234 ∧ see s0 0x1200 State.pc = some 0x200 := by decide
/-- T3. -/
theorem test_call : see s0 0x2300 (fun t => (t.pc, t.sp, t.stack[0], t.events)) = some (0x300, 1, 0x202, []) := by decide
/-- T6. -/
theorem test_call_overflow : see (deep s0 16) 0x2400 (fun t => (t.pc, t.sp, t.stack[15], t.events)) =
    some (0x202, 16, 0x31E, [⟨.stackOverflow, 0x200, 0x2400⟩]) := by decide
/-- T9, T10. -/
theorem test_se_imm : see (regs s0 [(3, 0x42)]) 0x3342 State.pc = some 0x204 ∧
    see (regs s0 [(3, 0x41)]) 0x3342 State.pc = some 0x202 := by decide
/-- T20. -/
theorem test_se_imm_wraps : see { s0 with pc := 0xFFFE } 0x3000 State.pc = some 0x0002 := by decide
/-- T11, T12. -/
theorem test_sne_imm : see (regs s0 [(3, 0x41)]) 0x4342 State.pc = some 0x204 ∧
    see (regs s0 [(3, 0x42)]) 0x4342 State.pc = some 0x202 := by decide
/-- T14, T15. -/
theorem test_se_reg : see (regs s0 [(1, 7), (2, 7)]) 0x5121 State.pc = some 0x204 ∧
    see (regs s0 [(1, 7), (2, 8)]) 0x5120 State.pc = some 0x202 := by decide
/-- T16, T17. -/
theorem test_sne_reg : see (regs s0 [(1, 7), (2, 8)]) 0x9120 State.pc = some 0x204 ∧
    see (regs s0 [(1, 7)]) 0x9110 State.pc = some 0x202 := by decide
/-- T18, T19. -/
theorem test_jp_v0 : see (regs s0 [(0, 0x10)]) 0xB300 State.pc = some 0x310 ∧
    see (regs s0 [(0, 0xFF)]) 0xBFFF State.pc = some 0x10FE := by decide

/-! ### Register loads, ALU and random -/

/-- T21. -/
theorem test_ld_imm : see s0 0x6A5C (fun t => (t.pc, t.getV 0xA)) = some (0x202, 0x5C) := by decide
/-- T22. -/
theorem test_add_imm_wraps : see (regs s0 [(1, 0xFF), (15, 0xAB)]) 0x7101 (fun t => (t.getV 1, t.getV 15)) =
    some (0x00, 0xAB) := by decide
/-- T23. -/
theorem test_ld_reg : see (regs s0 [(2, 0x33), (15, 0xAB)]) 0x8120 (fun t => (t.getV 1, t.getV 15)) =
    some (0x33, 0xAB) := by decide
/-- T24, both values of LOGIC_VF. -/
theorem test_or : see (regs s0 [(1, 0xF0), (2, 0x0F), (15, 0x55)]) 0x8121 (fun t => (t.getV 1, t.getV 15)) =
      some (0xFF, 0x55) ∧
    see (regs s1 [(1, 0xF0), (2, 0x0F), (15, 0x55)]) 0x8121 (fun t => (t.getV 1, t.getV 15)) = some (0xFF, 0x00) := by decide
/-- T25. -/
theorem test_and : see (regs s0 [(1, 0xF0), (2, 0x3C)]) 0x8122 (State.getV · 1) = some 0x30 := by decide
/-- T26. -/
theorem test_xor : see (regs s0 [(1, 0xFF), (2, 0x0F)]) 0x8123 (State.getV · 1) = some 0xF0 := by decide
/-- T28, T29. -/
theorem test_add_reg : see (regs s0 [(1, 0x80), (2, 0x7F), (15, 1)]) 0x8124 (fun t => (t.getV 1, t.getV 15)) =
      some (0xFF, 0) ∧
    see (regs s0 [(1, 0x80), (2, 0x80)]) 0x8124 (fun t => (t.getV 1, t.getV 15)) = some (0x00, 1) := by decide
/-- T40, both values of FLAG_ORDER. -/
theorem test_add_reg_into_vf : see (regs s0 [(15, 0x90)]) 0x8FF4 (State.getV · 15) = some 0x20 ∧
    see (regs s1 [(15, 0x90)]) 0x8FF4 (State.getV · 15) = some 0x01 := by decide
/-- T31, T32. -/
theorem test_sub : see (regs s0 [(1, 3), (2, 5), (15, 1)]) 0x8125 (fun t => (t.getV 1, t.getV 15)) = some (0xFE, 0) ∧
    see (regs s0 [(1, 5), (2, 5), (15, 1)]) 0x8125 (fun t => (t.getV 1, t.getV 15)) = some (0, 0) := by decide
/-- T42. -/
theorem test_sub_from_old_vf : see (regs s0 [(1, 5), (15, 3)]) 0x81F5 (fun t => (t.getV 1, t.getV 15)) =
    some (2, 1) := by decide
/-- T37, both values of SHIFT_SOURCE. -/
theorem test_shr : see (regs s0 [(1, 2), (2, 0x55), (15, 1)]) 0x8126 (fun t => (t.getV 1, t.getV 15)) = some (1, 0) ∧
    see (regs s1 [(1, 2), (2, 0x55), (15, 1)]) 0x8126 (fun t => (t.getV 1, t.getV 15)) = some (0x2A, 1) := by decide
/-- T41, both values of FLAG_ORDER; the second with the source register VF too (SHIFT_SOURCE is VY there). -/
theorem test_shr_of_vf : see (regs s0 [(15, 2)]) 0x8F06 (State.getV · 15) = some 1 ∧
    see (regs s1 [(15, 2)]) 0x8FF6 (State.getV · 15) = some 0 := by decide
/-- T33, T35. -/
theorem test_subn : see (regs s0 [(1, 3), (2, 5)]) 0x8127 (fun t => (t.getV 1, t.getV 15)) = some (2, 1) ∧
    see (regs s0 [(1, 5), (2, 5), (15, 1)]) 0x8127 (fun t => (t.getV 1, t.getV 15)) = some (0, 0) := by decide
/-- T38, T39. -/
theorem test_shl : see (regs s0 [(1, 0x81)]) 0x810E (fun t => (t.getV 1, t.getV 15)) = some (0x02, 1) ∧
    see (regs s0 [(1, 0x41), (15, 1)]) 0x810E (fun t => (t.getV 1, t.getV 15)) = some (0x82, 0) := by decide
/-- T43, T44. -/
theorem test_rnd : see (s0.withInputs 0 0xB7) 0xC30F (State.getV · 3) = some 0x07 ∧
    see (regs (s0.withInputs 0 0xB7) [(3, 0x12)]) 0xC300 (State.getV · 3) = some 0 := by decide

/-! ### Display -/

/-- T45. -/
theorem test_cls : see (lit (lit (regs s0 [(15, 7)]) 0 0) 63 31) 0x00E0
    (fun t => (t.fb.cell 0 0, t.fb.cell 31 63, t.getV 15)) = some (false, false, 7) := by decide
/-- T46. -/
theorem test_cls_ignores_a_nibble : see (lit s0 5 5) 0x01E0 (fun t => t.fb.cell 5 5) = some false := by decide
/-- T48 and T52: columns past 63 are dropped, and a dropped bit does not collide. -/
theorem test_drw_drops_columns :
    see { bytes (regs s0 [(1, 60)]) 0x300 [0xFF] with i := 0x300 } 0xD121
      (fun t => (t.fb.cell 0 60, t.fb.cell 0 63, t.fb.cell 0 0, t.getV 15)) = some (true, true, false, 0) ∧
    see (lit { bytes (regs s0 [(1, 60)]) 0x300 [0x01] with i := 0x300 } 63 0) 0xD121
      (fun t => (t.fb.cell 0 63, t.getV 15)) = some (true, 0) := by decide
/-- T51 and T49: a collision, and a row that wraps to the top. -/
theorem test_drw_collides_and_wraps_rows :
    see (lit { bytes s0 0x300 [0xC0] with i := 0x300 } 1 0) 0xD121
      (fun t => (t.fb.cell 0 0, t.fb.cell 0 1, t.getV 15)) = some (true, false, 1) ∧
    see { bytes (regs s0 [(2, 31)]) 0x300 [0x80, 0x80] with i := 0x300 } 0xD122
      (fun t => (t.fb.cell 31 0, t.fb.cell 0 0, t.fb.cell 1 0)) = some (true, true, false) := by decide

/-! ### Index and memory -/

/-- T56. -/
theorem test_ld_i : see s0 0xA123 State.i = some 0x123 := by decide
/-- T58, T59. -/
theorem test_add_i : see { regs s0 [(0, 1)] with i := 0xFFFF } 0xF01E (fun t => (t.i, t.getV 15)) = some (0, 0) ∧
    see { regs s0 [(0, 1)] with i := 0x0FFF } 0xF01E State.i = some 0x1000 := by decide
/-- T60, T62. -/
theorem test_ld_f : see (regs s0 [(0, 0x0A)]) 0xF029 State.i = some 0x032 ∧
    see (regs s0 [(0, 0xFF)]) 0xF029 State.i = some 0x4FB := by decide
/-- T63. -/
theorem test_ld_b : see { regs s0 [(3, 0xFF)] with i := 0x300 } 0xF333
    (fun t => (t.readByte 0x300, t.readByte 0x301, t.readByte 0x302)) = some (2, 5, 5) := by decide
/-- T66: the third digit overwrites a font byte. -/
theorem test_ld_b_wraps : see { regs s0 [(3, 0x7B)] with i := 0xFFE } 0xF333
    (fun t => (t.readByte 0xFFE, t.readByte 0xFFF, t.readByte 0)) = some (1, 2, 3) := by decide
/-- T67, both values of MEM_I_INCREMENT. -/
theorem test_dump : see { regs s0 [(0, 1), (1, 2), (2, 3), (3, 0x44)] with i := 0x300 } 0xF255
      (fun t => (t.readByte 0x300, t.readByte 0x302, t.readByte 0x303, t.i)) = some (1, 3, 0, 0x300) ∧
    see { regs s1 [(0, 1), (1, 2), (2, 3)] with i := 0x300 } 0xF255 State.i = some 0x303 := by decide
/-- T70. -/
theorem test_dump_wraps : see { regs s0 [(0, 0xAA), (1, 0xBB)] with i := 0xFFF } 0xF155
    (fun t => (t.readByte 0xFFF, t.readByte 0)) = some (0xAA, 0xBB) := by decide
/-- T68. -/
theorem test_load : see { bytes s0 0x300 [0x0A, 0x0B, 0x0C, 0x0D] with i := 0x300 } 0xF265
    (fun t => (t.getV 0, t.getV 2, t.getV 3, t.i)) = some (0x0A, 0x0C, 0, 0x300) := by decide

/-! ### Timers and keys -/

/-- T72, T73. -/
theorem test_skp : see (regs s0 [(1, 3)]) 0xE19E State.pc = some 0x202 ∧
    see (regs (s0.withInputs 0x0008 0) [(1, 0x13)]) 0xE19E State.pc = some 0x204 := by decide
/-- T74, T75. -/
theorem test_sknp : see (regs s0 [(1, 3)]) 0xE1A1 State.pc = some 0x204 ∧
    see (regs (s0.withInputs 0x0008 0) [(1, 3)]) 0xE1A1 State.pc = some 0x202 := by decide
/-- T76. -/
theorem test_ld_vx_dt : see { s0 with dt := 5 } 0xF407 (fun t => (t.getV 4, t.dt)) = some (5, 4) := by decide
/-- T77, T78. -/
theorem test_ld_dt_vx : see (regs s0 [(4, 5)]) 0xF415 State.dt = some 4 ∧
    see { s0 with dt := 9 } 0xF415 State.dt = some 0 := by decide
/-- T79, T80. -/
theorem test_ld_st_vx : see (regs s0 [(4, 1)]) 0xF418 (fun t => (t.st, t.sound)) = some (0, false) ∧
    see (regs s0 [(4, 2)]) 0xF418 (fun t => (t.st, t.sound)) = some (1, true) := by decide
/-- T83. -/
theorem test_key_wait : see { s0 with pc := 0x206, dt := 3 } 0xF30A (fun t => (t.pc, t.getV 3, t.dt)) =
    some (0x206, 0, 2) := by decide
/-- T85: keys 3 and 0xB down. -/
theorem test_key_lowest : see (s0.withInputs 0x0808 0) 0xF30A (fun t => (t.pc, t.getV 3)) = some (0x202, 3) := by decide
/-- T81, T82. -/
theorem test_timers : see { s0 with dt := 1, st := 1 } 0x6000 (fun t => (t.dt, t.st)) = some (0, 0) ∧
    see s0 0x6000 (fun t => (t.dt, t.st)) = some (0, 0) := by decide

/-! ### Unknown words, fetch and ports -/

/-- T87. -/
theorem test_unknown : see { regs s0 [(1, 0x11)] with i := 0x300, dt := 2 } 0x8008
    (fun t => (t.pc, t.getV 1, t.i, t.dt, t.events)) =
    some (0x202, 0x11, 0x300, 1, [⟨.unknownInstruction, 0x200, 0x8008⟩]) := by decide
/-- T95: the second byte of the word is the font's first. -/
theorem test_fetch_wraps : (match step { bytes s0 0xFFF [0x60] with pc := 0x0FFF } with
    | .next t => some (t.pc, t.getV 0) | _ => none) = some (0x1001, 0xF0) := by decide
/-- T96. -/
theorem test_fetch_masks : (match step { bytes s0 0x200 [0x6A, 0x01] with pc := 0x1200 } with
    | .next t => some (t.pc, t.getV 10) | _ => none) = some (0x1202, 0x01) := by decide
/-- E1. -/
theorem test_load_port : ((s0.load [0x12, 0x00, 0xAB, 0xCD]).1, (s0.load [0x12, 0x00, 0xAB, 0xCD]).2.readByte 0x203,
    (s0.load [0x12, 0x00, 0xAB, 0xCD]).2.readByte 0x204, (s0.load [0x12, 0x00, 0xAB, 0xCD]).2.pc) =
    (LoadResult.ok, 0xCD#8, 0x00#8, 0x200#16) := by decide
/-- 10_state R43: cell (5, 1) is bit 69. -/
theorem test_port_bit : (lit s0 5 1).fb.portBit 69 = true ∧ (lit s0 5 1).fb.portBit 68 = false := by decide
/-- 60_exceptions R231. -/
theorem test_event_codes : [EventKind.unknownInstruction, .stackOverflow, .stackUnderflow].map eventCode = [1, 2, 3] := by
  decide

/-! ### Witnesses: the hypotheses of each statement are met, each clause at a boundary of its range -/

/-- What `executeWord` leaves before the tick. -/
def mid {α : Type} (s : State) (f : State → α) : Option α :=
  match executeWord s.fetchWord s.beginCycle with
  | .next u => some (f u)
  | .fault _ => none
  | .refused _ => none

/-- The state after a step, if there is one. -/
def after {α : Type} (s : State) (f : State → α) : Option α :=
  match step s with
  | .next t => some (f t)
  | .fault _ => none
  | .refused _ => none

theorem witness_StepRunsTheDecodedInstruction :
    decode (holding s0 0x6A5C).fetchWord = .ok (.ldImm 10 0x5C) ∧
    ∃ t, exec (.ldImm 10 0x5C) { holding s0 0x6A5C with pc := 0x202, events := [] } = .next t := ⟨by decide, _, rfl⟩

theorem witness_UnknownWordOnlyAdvancesTicksAndReports :
    decode (holding s0 0x8008).fetchWord = .error (.unknownInstruction 0x8008) ∧
    decode (holding s0 0xE19F).fetchWord = .error (.unknownInstruction 0xE19F) ∧
    decode (holding s0 0xFFFF).fetchWord = .error (.unknownInstruction 0xFFFF) := ⟨by decide, by decide, by decide⟩

/-- The least nonzero timer and the zero timer, before the tick. -/
theorem witness_BothTimersTickOnceAfterEveryExecution :
    mid (holding { s0 with dt := 1 } 0x6000) (fun u => (decide (u.dt ≠ 0#8), decide (u.st = 0#8))) = some (true, true) ∧
    mid (holding { s0 with st := 255 } 0x6000) (fun u => (decide (u.dt = 0#8), decide (u.st ≠ 0#8))) = some (true, true) := by
  decide

/-- A state with a listed byte and a shown event. -/
theorem witness_EveryStepKeepsTheInvariant :
    ({ bytes s0 0xFFF [0x60] with events := [⟨.stackUnderflow, 0x200, 0x00EE⟩] } : State).Inv ∧
    ∃ t, step { bytes s0 0xFFF [0x60] with events := [⟨.stackUnderflow, 0x200, 0x00EE⟩] } = .next t :=
  ⟨⟨by decide, by decide⟩, _, rfl⟩

theorem witness_DecodeOfEncodeIsTheInstruction :
    (Instr.sys 0x0E1).wellFormed = true ∧ (Instr.drw 15 15 15).wellFormed = true := by decide

theorem witness_EncodeOfDecodeIsTheWord : decode 0xFFFF#16 = .error (.unknownInstruction 0xFFFF) ∧
    decode 0xFF65#16 = .ok (.load 15) ∧ decode 0x0000#16 = .ok (.sys 0) := by decide

/-- PC at the last byte: the high byte lies at 0xFFF and the low byte at 0x000 (20_memory R51, R52). -/
theorem witness_StoredWordIsTheNextFetched :
    (holding { s0 with pc := 0x0FFF } 0x2206).readByte 0xFFF = 0x22#8 ∧
    (holding { s0 with pc := 0x0FFF } 0x2206).readByte 0x000 = 0x06#8 ∧
    (holding { s0 with pc := 0x0FFF } 0x2206).fetchWord = 0x2206#16 := by decide

/-- SP 0, 15 and 16. -/
theorem witness_CallPushesAndJumpsOrReports :
    (deep s0 0).sp.val < 16 ∧ (deep s0 15).sp.val < 16 ∧ (deep s0 16).sp.val = 16 := by decide

/-- SP 1, 16 and 0. -/
theorem witness_RetPopsOrReports :
    (deep s0 1).sp.val ≠ 0 ∧ (deep s0 16).sp.val ≠ 0 ∧ (deep s0 0).sp.val = 0 := by decide

/-- The last free slot, and a slot the CALL does not write. -/
theorem witness_CallThenRetResumesAfterTheCall :
    (deep s0 15).sp.val < 16 ∧ (14 : Fin 16).val ≠ (deep s0 15).sp.val := by decide

theorem witness_SysChangesNothingButMayReport : s1.params.sysReports = true ∧ s0.params.sysReports = false := by decide

theorem witness_ImmediateSkipsCompareAndSkip :
    (regs s0 [(15, 0xFF)]).getV 15 = 0xFF#8 ∧ ¬ (regs s0 [(15, 0xFF)]).getV 15 = 0xFE#8 := by decide

theorem witness_RegisterSkipsCompareAndSkip :
    (regs s0 [(0, 1), (15, 1)]).getV 0 = (regs s0 [(0, 1), (15, 1)]).getV 15 ∧
    ¬ (regs s0 [(0, 1), (15, 0)]).getV 0 = (regs s0 [(0, 1), (15, 0)]).getV 15 := by decide

theorem witness_LogicOperationsWriteResultAndVFByParameter :
    s0.params.logicVF = .unchanged ∧ s1.params.logicVF = .clear ∧ (14#4 : Nib) ≠ regVF := by decide

/-- The clauses of `FlaggedOutcome`: a destination that is not VF, and VF under both orders; so for 8XY4. -/
theorem witness_AddRegGivesSumAndCarry : (0xE#4 : Nib) ≠ regVF ∧ (0xF#4 : Nib) = regVF ∧
    s0.params.flagOrder = .flagFirst ∧ s1.params.flagOrder = .resultFirst := by decide

/-- The same clauses for 8XY5 and 8XY7. -/
theorem witness_SubtractionsGiveDifferenceAndStrictFlag : (0x0#4 : Nib) ≠ regVF ∧ (0xF#4 : Nib) = regVF ∧
    s0.params.flagOrder = .flagFirst ∧ s1.params.flagOrder = .resultFirst := by decide

/-- Both sources: V1 = 0x81 in place, and V2 = 0x55. -/
theorem witness_ShiftsGiveTheBitShiftedOut :
    ((regs s0 [(1, 0x81), (2, 0x55)]).params.shiftSource = .vx → 0x81#8 = (regs s0 [(1, 0x81), (2, 0x55)]).getV 1) ∧
    ((regs s0 [(1, 0x81), (2, 0x55)]).params.shiftSource = .vy → 0x81#8 = (regs s0 [(1, 0x81), (2, 0x55)]).getV 2) ∧
    ((regs s1 [(1, 0x81), (2, 0x55)]).params.shiftSource = .vx → 0x55#8 = (regs s1 [(1, 0x81), (2, 0x55)]).getV 1) ∧
    ((regs s1 [(1, 0x81), (2, 0x55)]).params.shiftSource = .vy → 0x55#8 = (regs s1 [(1, 0x81), (2, 0x55)]).getV 2) := by
  decide

theorem witness_RndIsTheDrawMaskedByTheByte : (0x7F#8).getLsbD 7 = false ∧ (0xFE#8).getLsbD 0 = false := by decide

theorem witness_DrawingTwiceRestoresTheFramebuffer : (0x0#4 : Nib) ≠ regVF ∧ (0xE#4 : Nib) ≠ regVF := by decide

/-- One register, sixteen registers, both values of MEM_I_INCREMENT, a byte outside the window. -/
theorem witness_DumpStoresRegistersUpToX :
    (0#4).toNat ≤ (0#4).toNat ∧ (15#4).toNat ≤ (15#4).toNat ∧ s0.params.memIIncrement = .none ∧
    s1.params.memIIncrement = .xPlus1 ∧ maskAddr 16 ∉ s0.window 16 := by decide

/-- The last register loaded and the first not loaded. -/
theorem witness_LoadReadsRegistersUpToX :
    (0#4).toNat ≤ (0#4).toNat ∧ (0#4).toNat < (1#4).toNat ∧ (15#4).toNat ≤ (15#4).toNat ∧
    s0.params.memIIncrement = .none ∧ s1.params.memIIncrement = .xPlus1 := by decide

theorem witness_DumpThenLoadRestoresTheRegisters : (15#4).toNat ≤ (15#4).toNat ∧ (0#4).toNat ≤ (0#4).toNat := by decide

theorem witness_LdBStoresTheDecimalDigits : maskAddr 0x302 ∈ ({ s0 with i := 0x300 } : State).window 3 ∧
    maskAddr 0x303 ∉ ({ s0 with i := 0x300 } : State).window 3 := by decide

theorem witness_LdVxDTReadsTheTimerBeforeTheTick :
    decode (holding { s0 with dt := 1 } 0xFF07).fetchWord = .ok (.ldVxDT 15) := by decide

theorem witness_TimerWritesAreTickedInTheSameStep :
    decode (holding (regs s0 [(4, 1)]) 0xF415).fetchWord = .ok (.ldDTVx 4) ∧
    decode (holding (regs s0 [(4, 2)]) 0xF418).fetchWord = .ok (.ldSTVx 4) ∧
    2 ≤ ((holding (regs s0 [(4, 2)]) 0xF418).getV 4).toNat := by decide

/-- Key 15 down and named by 0xFF, and no key down. -/
theorem witness_KeySkipsTestTheKeyLevel :
    (s0.withInputs 0x8000 0).keys.getLsbD (((regs s0 [(1, 0xFF)]).getV 1).toNat % 16) = true ∧
    s0.keys.getLsbD (((regs s0 [(1, 0xFF)]).getV 1).toNat % 16) = false := by decide

/-- Key 15 alone, key 0 with every other key, and no key. -/
theorem witness_KeyWaitRecordsTheLowestKeyOrRewinds :
    (15 < 16 ∧ (0x8000#16).getLsbD 15 = true ∧ ∀ j, j < 15 → (0x8000#16).getLsbD j = false) ∧
    (0 < 16 ∧ (0xFFFF#16).getLsbD 0 = true ∧ ∀ j, j < 0 → (0xFFFF#16).getLsbD j = false) ∧
    ∀ k, k < 16 → (0x0000#16).getLsbD k = false := by decide

theorem witness_WaitingStepOnlyTicksTheTimers :
    decode (holding s0 0xFF0A).fetchWord = .ok (.ldVxK 15) ∧ (holding s0 0xFF0A).keys = 0#16 := by decide

/-- FX33 and FX55 each change a byte. -/
theorem witness_OnlyBcdAndDumpChangeMemory :
    after (holding { regs s0 [(3, 0xFF)] with i := 0xFFF } 0xF333)
      (fun t => decide (t.readByte 0xFFF ≠ (holding { regs s0 [(3, 0xFF)] with i := 0xFFF } 0xF333).readByte 0xFFF)) =
      some true ∧
    after (holding { regs s0 [(0, 7)] with i := 0x300 } 0xF055)
      (fun t => decide (t.readByte 0x300 ≠ (holding { regs s0 [(0, 7)] with i := 0x300 } 0xF055).readByte 0x300)) =
      some true := by decide

/-- 00E0 and DXYN each change a cell. -/
theorem witness_OnlyClsAndDrwChangeTheFramebuffer :
    after (holding (lit s0 63 31) 0x00E0) (fun t => decide (t.fb.cell 31 63 ≠ (lit s0 63 31).fb.cell 31 63)) = some true ∧
    after (holding s0 0xD121) (fun t => decide (t.fb.cell 0 0 ≠ s0.fb.cell 0 0)) = some true := by decide

/-- CALL changes slot SP and SP, RET changes SP. -/
theorem witness_OnlyCallAndRetTouchTheStack :
    after (holding (deep s0 15) 0x2400) (fun t => decide (t.stack[15] ≠ (deep s0 15).stack[15] ∧ t.sp ≠ (deep s0 15).sp)) =
      some true ∧
    after (holding (deep s0 1) 0x00EE) (fun t => decide (t.sp ≠ (deep s0 1).sp)) = some true := by decide

/-- No event, and one of each kind. -/
theorem witness_EveryStepRaisesAtMostOneEvent :
    after (holding s0 0x6000) State.events = some [] ∧
    after (holding s1 0x0123) State.events = some [⟨.unknownInstruction, 0x200, 0x0123⟩] ∧
    after (holding s0 0xFFFF) State.events = some [⟨.unknownInstruction, 0x200, 0xFFFF⟩] ∧
    after (holding (deep s0 16) 0x2400) State.events = some [⟨.stackOverflow, 0x200, 0x2400⟩] ∧
    after (holding s0 0x0FEE) State.events = some [⟨.stackUnderflow, 0x200, 0x0FEE⟩] := by decide

theorem witness_NoStepChangesAParameter : ∃ t, step s1 = .next t := ⟨_, rfl⟩

/-- Two states that differ in slot 0 with SP 0, and in slot 15 with SP 15. -/
theorem witness_StaleStackSlotsAreUnobservable :
    SameButStaleSlots s0 { s0 with stack := s0.stack.set 0 0x123 } ∧
    SameButStaleSlots (deep s0 15) { deep s0 15 with stack := (deep s0 15).stack.set 15 0 } :=
  ⟨⟨rfl, by decide⟩, ⟨rfl, by decide⟩⟩

/-- I at 0 and at 4096, at 4095 and at 65535. -/
theorem witness_OnlyTheLowTwelveBitsOfIMatter :
    SameButIndexPage s0 { s0 with i := 0x1000 } ∧ SameButIndexPage { s0 with i := 0x0FFF } { s0 with i := 0xFFFF } :=
  ⟨⟨rfl, by decide⟩, ⟨rfl, by decide⟩⟩

/-- DRW reads neither input. -/
theorem witness_InputsReachOnlyTheirInstructions :
    ¬ (holding s0 0xD125).readsKeys ∧ ¬ (holding s0 0xD125).readsRnd := by
  have h : decode (holding s0 0xD125).fetchWord = .ok (.drw 1 2 5) := by decide
  constructor
  · rintro ⟨x, hx⟩; rw [h] at hx; rcases hx with hx | hx | hx <;> cases hx
  · rintro ⟨x, nn, hx⟩; rw [h] at hx; cases hx

/-- The same byte written twice, and written once. -/
theorem witness_CanonicalMemoriesWithEqualBytesAreEqual :
    Memory.wf defaultFont (Memory.write defaultFont (Memory.write defaultFont [] 4095 1) 4095 2) ∧
    Memory.wf defaultFont [(4095, 2)] ∧ ∀ a, a < 4096 →
      Memory.read defaultFont (Memory.write defaultFont (Memory.write defaultFont [] 4095 1) 4095 2) a =
        Memory.read defaultFont [(4095, 2)] a := by
  have h : Memory.write defaultFont (Memory.write defaultFont [] 4095 1) 4095 2 = [(4095, 2)] := by decide
  rw [h]; exact ⟨by decide, by decide, fun _ _ => rfl⟩

/-- The empty image and the longest image; an address before the program, and the first after a program of one byte. -/
theorem witness_LoadResetsAndPlacesTheImage :
    ([] : List Byte).length ≤ 3584 ∧ (List.replicate 3584 0xAB#8).length ≤ 3584 ∧
    3583 < (List.replicate 3584 0xAB#8).length ∧
    (80 ≤ 80 ∧ 80 < 4096 ∧ ¬ (0x200 ≤ 80 ∧ 80 < 0x200 + 1)) ∧ (80 ≤ 0x201 ∧ 0x201 < 4096 ∧ ¬ (0x200 ≤ 0x201 ∧ 0x201 < 0x200 + 1)) := by
  simp only [List.length_replicate, List.length_nil]; decide

/-- One word for each instruction that reads an input; key 15 alone given, and no key. -/
theorem witness_GivenInputsReachTheirInstructions :
    decode (holding s0 0xC30F).fetchWord = .ok (.rnd 3 0x0F) ∧ decode (holding s0 0xE19E).fetchWord = .ok (.skp 1) ∧
    decode (holding s0 0xE1A1).fetchWord = .ok (.sknp 1) ∧ decode (holding s0 0xFF0A).fetchWord = .ok (.ldVxK 15) ∧
    (15 < 16 ∧ (0x8000#16).getLsbD 15 = true ∧ ∀ l, l < 15 → (0x8000#16).getLsbD l = false) ∧ (0 : BitVec 16) = 0#16 := by
  decide

theorem witness_OversizedLoadIsRejectedWhole : 3584 < (List.replicate 3585 0xAB#8).length := by
  simp only [List.length_replicate]; decide

end Sys2Proof.Tests
end

section
/-! PROOFS. What a word may change, said once for every instruction and then for the whole step: the frame of a step. That no
step changes a parameter is read off from it. -/

namespace Sys2Proof.Machine

/-! ### Frames of the shared operations -/

theorem unchanged_skipIf (s : State) (c : Bool) : Unchanged [.pc] s (s.skipIf c) := by
  rw [State.skipIf_eq]; exact unchanged_setPC _ _

theorem unchanged_writeFlagged (s : State) (x : Nib) (f : Bool) (b : Byte) : Unchanged [.v] s (s.writeFlagged x f b) := by
  obtain ⟨v, hv⟩ := s.writeFlagged_frame x f b
  rw [hv]; exact unchanged_v s v

theorem unchanged_writeLogic (s : State) (x : Nib) (b : Byte) : Unchanged [.v] s (s.writeLogic x b) := by
  obtain ⟨v, hv⟩ := s.writeLogic_frame x b
  rw [hv]; exact unchanged_v s v

theorem unchanged_storeRegs (s : State) (n : Nat) : Unchanged [.mem] s (s.storeRegs n) := by
  obtain ⟨m, hm⟩ := s.storeRegs_frame n
  rw [hm]; exact unchanged_mem s m

theorem unchanged_loadRegs (s : State) (n : Nat) : Unchanged [.v] s (s.loadRegs n) := by
  obtain ⟨v, hv⟩ := s.loadRegs_frame n
  rw [hv]; exact unchanged_v s v

/-- A push writes a slot and SP. -/
theorem State.unchanged_push {s t : State} {a : Word} (h : s.push a = some t) : Unchanged [.stack, .sp] s t := by
  have hsp : s.sp.val < 16 := by
    by_contra hn
    rw [State.push_eq_none s a (by omega)] at h
    cases h
  rw [State.push_eq_some s a hsp] at h
  obtain rfl := Option.some.inj h
  intro p hp; cases p <;> simp at hp <;> simp [Part.same, State.getV, State.readByte]

/-- A pop writes SP alone: the slot keeps its value. -/
theorem State.unchanged_pop {s t : State} {a : Word} (h : s.pop = some (a, t)) : Unchanged [.sp] s t := by
  have hsp : s.sp.val ≠ 0 := by
    intro h0
    rw [State.pop_eq_none s h0] at h
    cases h
  rw [State.pop_eq_some s hsp] at h
  obtain ⟨-, rfl⟩ := Prod.mk.inj (Option.some.inj h)
  intro p hp; cases p <;> simp at hp <;> simp [Part.same, State.getV, State.readByte]

/-- The advance of PC, with the event list emptied. -/
theorem unchanged_beginCycle (s : State) : Unchanged [.pc, .events] s s.beginCycle := by
  intro p hp; cases p <;> simp at hp <;> simp [Part.same]

/-- The tick of the timers and the inputs of the step to come. -/
theorem unchanged_endCycle (s : State) : Unchanged [.dt, .st, .keys, .rnd, .inputNo] s s.endCycle := by
  intro p hp; cases p <;> simp at hp <;> simp [Part.same]

/-! ### The parts an instruction may change -/

/-- The parts the execution of an instruction may change, after the advance of PC; every other part it leaves as it was
(`exec_frame`). -/
def mayChange : Instr → List Part
  | .cls _ => [.fb]
  | .drw .. => [.fb, .v]
  | .sys _ => [.events]
  | .ret _ => [.sp, .pc, .events]
  | .call _ => [.stack, .sp, .pc, .events]
  | .jp _ | .jpV0 _ | .seImm .. | .sneImm .. | .seReg .. | .sneReg .. | .skp _ | .sknp _ => [.pc]
  | .ldImm .. | .addImm .. | .ldReg .. | .orReg .. | .andReg .. | .xorReg .. | .addReg .. | .subReg .. | .shr ..
  | .subnReg .. | .shl .. | .rnd .. | .ldVxDT _ => [.v]
  | .ldVxK _ => [.v, .pc]
  | .ldDTVx _ => [.dt]
  | .ldSTVx _ => [.st]
  | .ldI _ | .addI _ | .ldF _ => [.i]
  | .ldB _ => [.mem]
  | .dump _ => [.mem, .i]
  | .load _ => [.v, .i]

/-- RET pops and jumps, or only reports an empty stack. -/
theorem execRet_frame (ign : Nib) (s : State) :
    ∃ t, execRet ign s = .next t ∧ Unchanged [.sp, .pc, .events] s t := by
  refine ⟨_, rfl, ?_⟩
  split
  next => exact (unchanged_raise s _ _).mono (by simp)
  next a t h => exact ((State.unchanged_pop h).trans (unchanged_setPC t a)).mono (by simp)

/-- CALL pushes and jumps, or only reports a full stack. -/
theorem execCall_frame (nnn : Addr) (s : State) :
    ∃ t, execCall nnn s = .next t ∧ Unchanged [.stack, .sp, .pc, .events] s t := by
  refine ⟨_, rfl, ?_⟩
  split
  next => exact (unchanged_raise s _ _).mono (by simp)
  next t h => exact ((State.unchanged_push h).trans (unchanged_setPC t _)).mono (by simp)

/-- SYS reports or does nothing, by `SYS_REPORTS`. -/
theorem execSys_frame (nnn : Addr) (s : State) : ∃ t, execSys nnn s = .next t ∧ Unchanged [.events] s t := by
  refine ⟨_, rfl, ?_⟩
  split
  next => exact unchanged_raise s _ _
  next => exact unchanged_refl _ s

/-- LD Vx, K writes V[x] when a key is down, and else PC. -/
theorem execLdVxK_frame (x : Nib) (s : State) : ∃ t, execLdVxK x s = .next t ∧ Unchanged [.v, .pc] s t := by
  refine ⟨_, rfl, ?_⟩
  split
  next => exact (unchanged_setV s _ _).mono (by simp)
  next => exact (unchanged_setPC s _).mono (by simp)

/-- Every instruction answers a next state, and changes no part but those of `mayChange`. -/
theorem exec_frame (i : Instr) (s : State) : ∃ t, exec i s = .next t ∧ Unchanged (mayChange i) s t := by
  cases i with
  | cls => exact ⟨_, rfl, unchanged_setFB s _⟩
  | drw => exact ⟨_, rfl, (unchanged_setFB s _).trans (unchanged_setV _ _ _)⟩
  | sys nnn => exact execSys_frame nnn s
  | ret ign => exact execRet_frame ign s
  | call nnn => exact execCall_frame nnn s
  | jp | jpV0 => exact ⟨_, rfl, unchanged_setPC s _⟩
  | seImm | sneImm | seReg | sneReg | skp | sknp => exact ⟨_, rfl, unchanged_skipIf s _⟩
  | ldImm | addImm | ldReg | rnd | ldVxDT => exact ⟨_, rfl, unchanged_setV s _ _⟩
  | orReg | andReg | xorReg => exact ⟨_, rfl, unchanged_writeLogic s _ _⟩
  | addReg | subReg | shr | subnReg | shl => exact ⟨_, rfl, unchanged_writeFlagged s _ _ _⟩
  | ldVxK x => exact execLdVxK_frame x s
  | ldDTVx => exact ⟨_, rfl, unchanged_setDT s _⟩
  | ldSTVx => exact ⟨_, rfl, unchanged_setST s _⟩
  | ldI | addI | ldF => exact ⟨_, rfl, unchanged_setI s _⟩
  | ldB => exact ⟨_, rfl, unchanged_mem s _⟩
  | dump x => exact ⟨_, rfl, (unchanged_storeRegs s _).trans (unchanged_bumpI _ x)⟩
  | load x => exact ⟨_, rfl, (unchanged_loadRegs s _).trans (unchanged_bumpI _ x)⟩

/-! ### The frame of a step -/

/-- The parts the execution of a fetched word may change: those of its instruction, or the events for an unknown word. -/
def wordMayChange (w : Word) : List Part :=
  match decode w with
  | .ok i => mayChange i
  | .error _ => [.events]

theorem wordMayChange_of_ok {w : Word} {i : Instr} (h : decode w = .ok i) : wordMayChange w = mayChange i := by
  rw [wordMayChange, h]

theorem wordMayChange_of_error {w : Word} {e : Reject} (h : decode w = .error e) : wordMayChange w = [.events] := by
  rw [wordMayChange, h]

/-- A word that decodes runs its instruction (40_cycle R104). -/
theorem executeWord_of_ok {w : Word} {i : Instr} (h : decode w = .ok i) (s : State) : executeWord w s = exec i s := by
  rw [executeWord, h]

/-- An unknown word raises its event and nothing else (40_cycle R105). -/
theorem executeWord_of_error {w : Word} {e : Reject} (h : decode w = .error e) (s : State) :
    executeWord w s = .next (s.raise .unknownInstruction w) := by
  rw [executeWord, h, execUnknown]

/-- Every word, unknown or not, answers a next state, and changes no part but those of `wordMayChange`. -/
theorem executeWord_frame (w : Word) (s : State) :
    ∃ t, executeWord w s = .next t ∧ Unchanged (wordMayChange w) s t := by
  cases h : decode w with
  | ok i =>
    rw [executeWord_of_ok h, wordMayChange_of_ok h]
    exact exec_frame i s
  | error e =>
    rw [executeWord_of_error h, wordMayChange_of_error h]
    exact ⟨_, rfl, unchanged_raise s _ _⟩

/-- A step is the execution of the fetched word after the advance, and then the end of the cycle. -/
theorem step_eq_of_executeWord {s u : State} (h : executeWord s.fetchWord s.beginCycle = .next u) :
    step s = .next u.endCycle := by
  rw [step, cycle, h]; rfl

/-- Every step answers a next state, and changes no part but those of its cycle and of the word at PC. -/
theorem step_frame (s : State) : ∃ t, step s = .next t ∧
    Unchanged ([.pc, .events] ++ wordMayChange s.fetchWord ++ [.dt, .st, .keys, .rnd, .inputNo]) s t := by
  obtain ⟨u, hu, hframe⟩ := executeWord_frame s.fetchWord s.beginCycle
  exact ⟨u.endCycle, step_eq_of_executeWord hu,
    ((unchanged_beginCycle s).trans hframe).trans (unchanged_endCycle u)⟩

/-- The frame of a step, for the state it answered. -/
theorem unchanged_of_step {s t : State} (h : step s = .next t) :
    Unchanged ([.pc, .events] ++ wordMayChange s.fetchWord ++ [.dt, .st, .keys, .rnd, .inputNo]) s t := by
  obtain ⟨u, hu, hframe⟩ := step_frame s
  obtain rfl : u = t := Host.Outcome.next.inj (hu.symm.trans h)
  exact hframe

/-! ### The parameters -/

/-- No instruction writes the parameters. -/
theorem params_not_mem_mayChange (i : Instr) : Part.params ∉ mayChange i := by
  cases i <;> simp [mayChange]

/-- No word writes the parameters. -/
theorem params_not_mem_wordMayChange (w : Word) : Part.params ∉ wordMayChange w := by
  cases h : decode w with
  | ok i =>
    rw [wordMayChange_of_ok h]
    exact params_not_mem_mayChange i
  | error e =>
    rw [wordMayChange_of_error h]
    simp

/-- Settles O50: the parameters are in the frame of every step. -/
theorem noStepChangesAParameter : Obligations.NoStepChangesAParameter := by
  unfold Obligations.NoStepChangesAParameter
  intro s t h
  exact unchanged_of_step h .params (by simp [params_not_mem_wordMayChange])

end Sys2Proof.Machine
end

section
/-! PROOFS. Which instruction changed a part of the state that no cycle changes by itself: memory, framebuffer, stack
and SP, each read off from the frame of a step; CALL and RET case by case; and the bits of the framebuffer port. -/

namespace Sys2Proof.Machine

/-! ### The instruction behind a change -/

/-- The parts that a cycle leaves alone around the execution of its word, and that an unknown word leaves alone too. -/
def Part.instrOnly : Part → Bool
  | .v | .i | .stack | .sp | .fb | .mem | .params => true
  | .pc | .dt | .st | .keys | .rnd | .inputNo | .events => false

/-- A part that only an instruction changes was changed by the one at PC. -/
theorem decode_of_changed {s t : State} {p : Part} (h : step s = .next t) (hp : p.instrOnly) (hc : ¬ p.same s t) :
    ∃ i, decode s.fetchWord = .ok i ∧ p ∈ mayChange i := by
  have hmem : p ∈ wordMayChange s.fetchWord := by
    by_contra hn
    exact hc (unchanged_of_step h p (by cases p <;> simp [Part.instrOnly] at hp <;> simp [hn]))
  cases hd : decode s.fetchWord with
  | ok i => exact ⟨i, rfl, by rwa [wordMayChange_of_ok hd] at hmem⟩
  | error e =>
    rw [wordMayChange_of_error hd, List.mem_singleton] at hmem
    subst hmem
    cases hp

/-- Only LD B, Vx and LD [I], Vx may change memory. -/
theorem eq_ldB_or_dump_of_mem {i : Instr} (h : Part.mem ∈ mayChange i) : ∃ x, i = .ldB x ∨ i = .dump x := by
  cases i <;> simp [mayChange] at h
  case ldB x => exact ⟨x, .inl rfl⟩
  case dump x => exact ⟨x, .inr rfl⟩

/-- Only CLS and DRW may change the framebuffer. -/
theorem eq_cls_or_drw_of_fb {i : Instr} (h : Part.fb ∈ mayChange i) :
    (∃ k, i = .cls k) ∨ ∃ x y n, i = .drw x y n := by
  cases i <;> simp [mayChange] at h
  case cls k => exact .inl ⟨k, rfl⟩
  case drw x y n => exact .inr ⟨x, y, n, rfl⟩

/-- Only CALL may change the stack slots. -/
theorem eq_call_of_stack {i : Instr} (h : Part.stack ∈ mayChange i) : ∃ nnn, i = .call nnn := by
  cases i <;> simp [mayChange] at h
  case call nnn => exact ⟨nnn, rfl⟩

/-- Only CALL and RET may change SP. -/
theorem eq_call_or_ret_of_sp {i : Instr} (h : Part.sp ∈ mayChange i) :
    (∃ nnn, i = .call nnn) ∨ ∃ k, i = .ret k := by
  cases i <;> simp [mayChange] at h
  case call nnn => exact .inl ⟨nnn, rfl⟩
  case ret k => exact .inr ⟨k, rfl⟩

/-- Settles O46: memory is in the frame of every other instruction. -/
theorem onlyBcdAndDumpChangeMemory : Obligations.OnlyBcdAndDumpChangeMemory := by
  unfold Obligations.OnlyBcdAndDumpChangeMemory
  rintro s t h ⟨a, ha⟩
  obtain ⟨i, hd, hmem⟩ := decode_of_changed (p := .mem) h rfl fun hsame => ha (hsame a)
  obtain ⟨x, rfl | rfl⟩ := eq_ldB_or_dump_of_mem hmem
  · exact ⟨x, .inl hd⟩
  · exact ⟨x, .inr hd⟩

/-- Settles O47: the framebuffer is in the frame of every other instruction. -/
theorem onlyClsAndDrwChangeTheFramebuffer : Obligations.OnlyClsAndDrwChangeTheFramebuffer := by
  unfold Obligations.OnlyClsAndDrwChangeTheFramebuffer
  rintro s t h ⟨y, x, hyx⟩
  obtain ⟨i, hd, hmem⟩ := decode_of_changed (p := .fb) h rfl fun hsame => hyx (hsame y x)
  obtain ⟨k, rfl⟩ | ⟨x, y, n, rfl⟩ := eq_cls_or_drw_of_fb hmem
  · exact .inl ⟨k, hd⟩
  · exact .inr ⟨x, y, n, hd⟩

/-! ### CALL and RET, case by case -/

/-- CALL below 16 addresses writes the slot at SP and jumps (41_control_flow R124). -/
theorem execCall_of_lt (nnn : Addr) (s : State) (h : s.sp.val < 16) :
    execCall nnn s = .next { s with
      stack := s.stack.set s.sp.val s.pc h, sp := ⟨s.sp.val + 1, by omega⟩, pc := zextAddr nnn } := by
  rw [execCall, State.push_eq_some s s.pc h]; rfl

/-- CALL on a full stack only reports it (60_exceptions R236). -/
theorem execCall_of_full (nnn : Addr) (s : State) (h : s.sp.val = 16) :
    execCall nnn s = .next (s.raise .stackOverflow (encode (.call nnn))) := by
  rw [execCall, State.push_eq_none s s.pc h]

/-- RET jumps to the last address pushed and leaves its slot (41_control_flow R121). -/
theorem execRet_of_ne_zero (ign : Nib) (s : State) (h : s.sp.val ≠ 0) :
    execRet ign s = .next { s with
      sp := ⟨s.sp.val - 1, by omega⟩, pc := s.stack[s.sp.val - 1]'(by omega) } := by
  rw [execRet, State.pop_eq_some s h]; rfl

/-- RET on an empty stack only reports it (60_exceptions R237). -/
theorem execRet_of_zero (ign : Nib) (s : State) (h : s.sp.val = 0) :
    execRet ign s = .next (s.raise .stackUnderflow (encode (.ret ign))) := by
  rw [execRet, State.pop_eq_none s h]

/-- CALL leaves every slot but the one at SP. -/
theorem execCall_stack_of_ne {nnn : Addr} {s t : State} (h : execCall nnn s = .next t) (k : Fin 16)
    (hk : k.val ≠ s.sp.val) : t.stack[k.val] = s.stack[k.val] := by
  by_cases hsp : s.sp.val < 16
  · rw [execCall_of_lt nnn s hsp] at h
    obtain rfl := Host.Outcome.next.inj h
    exact Vector.getElem_set_ne hsp k.isLt hk.symm
  · rw [execCall_of_full nnn s (by omega)] at h
    obtain rfl := Host.Outcome.next.inj h
    rfl

/-- A step at a CALL leaves every slot but the one at SP. -/
theorem step_call_stack_of_ne {nnn : Addr} {s t : State} (h : step s = .next t)
    (hd : decode s.fetchWord = .ok (.call nnn)) (k : Fin 16) (hk : k.val ≠ s.sp.val) :
    t.stack[k.val] = s.stack[k.val] := by
  obtain ⟨u, hu, -⟩ := execCall_frame nnn s.beginCycle
  have hstep := step_eq_of_executeWord ((executeWord_of_ok hd _).trans hu)
  obtain rfl := Host.Outcome.next.inj (hstep.symm.trans h)
  exact execCall_stack_of_ne hu k hk

/-- Settles O48: slots and SP are in the frame of every other instruction, and CALL writes the slot at SP alone. -/
theorem onlyCallAndRetTouchTheStack : Obligations.OnlyCallAndRetTouchTheStack := by
  unfold Obligations.OnlyCallAndRetTouchTheStack
  intro s t h
  have hcall : ∀ k : Fin 16, t.stack[k.val] ≠ s.stack[k.val] → ∃ nnn, decode s.fetchWord = .ok (.call nnn) := by
    intro k hk
    obtain ⟨i, hd, hmem⟩ := decode_of_changed (p := .stack) h rfl fun hsame => hk (hsame k)
    obtain ⟨nnn, rfl⟩ := eq_call_of_stack hmem
    exact ⟨nnn, hd⟩
  refine ⟨fun ⟨k, hk⟩ => hcall k hk, fun k hk => ?_, fun hsp => ?_⟩
  · obtain ⟨nnn, hd⟩ := hcall k hk
    by_contra hne
    exact hk (step_call_stack_of_ne h hd k hne)
  · obtain ⟨i, hd, hmem⟩ := decode_of_changed (p := .sp) h rfl hsp
    obtain ⟨nnn, rfl⟩ | ⟨k, rfl⟩ := eq_call_or_ret_of_sp hmem
    · exact .inl ⟨nnn, hd⟩
    · exact .inr ⟨k, hd⟩

/-! ### The framebuffer port -/

/-- Bit `y * 64 + x` of the port is read from row `y`, column `x`. -/
theorem Framebuffer.portBit_row_col (fb : Framebuffer) (y : Fin 32) (x : Fin 64) :
    fb.portBit (y.val * 64 + x.val) = fb.cell y x := by
  have hy : (⟨(y.val * 64 + x.val) / 64 % 32, Nat.mod_lt _ (by decide)⟩ : Fin 32) = y := Fin.ext (by simp only; omega)
  have hx : (⟨(y.val * 64 + x.val) % 64, Nat.mod_lt _ (by decide)⟩ : Fin 64) = x := Fin.ext (by simp only; omega)
  rw [Framebuffer.portBit, hy, hx]

/-- Settles O58: the port lists its bits from bit 0 up. -/
theorem framebufferPortIsRowMajor : Obligations.FramebufferPortIsRowMajor := by
  unfold Obligations.FramebufferPortIsRowMajor
  intro s y x
  have hlt : y.val * 64 + x.val < 2048 := by omega
  rw [State.fbPort, BitVec.getLsbD_ofFnLE, dif_pos hlt, Framebuffer.portBit_row_col]

end Sys2Proof.Machine
end
section
/-! PROOFS. What does not reach a step: stack slots at SP and above, and an input that the word at PC does not read. Both
follow from one fact: an instruction commutes with a change of the stack and the inputs that it does not read. -/

namespace Sys2Proof.Machine

/-! ### Changing the stack and the inputs under an operation -/

/-- A change of the stack slots and of the two inputs, each by itself. -/
structure Remap where
  stack : Vector Word 16 → Vector Word 16
  keys : BitVec 16 → BitVec 16
  rnd : Byte → Byte

/-- The state with its stack slots and inputs changed. -/
def State.remap (f : Remap) (s : State) : State :=
  { s with stack := f.stack s.stack, keys := f.keys s.keys, rnd := f.rnd s.rnd }

/-- The change leaves alone whatever of stack and inputs the instruction reads or writes. -/
def Remap.Spares (f : Remap) : Instr → Prop
  | .call _ | .ret _ => f.stack = id
  | .skp _ | .sknp _ | .ldVxK _ => f.keys = id
  | .rnd _ _ => f.rnd = id
  | _ => True

theorem State.skipIf_remap (f : Remap) (s : State) (c : Bool) : (s.remap f).skipIf c = (s.skipIf c).remap f := by
  rw [State.skipIf_eq, State.skipIf_eq]; rfl

theorem State.writeFlagged_remap (f : Remap) (s : State) (x : Nib) (c : Bool) (b : Byte) :
    (s.remap f).writeFlagged x c b = (s.writeFlagged x c b).remap f := by
  have hp : (s.remap f).params = s.params := rfl
  rw [State.writeFlagged, State.writeFlagged, hp]
  cases s.params.flagOrder <;> rfl

theorem State.writeLogic_remap (f : Remap) (s : State) (x : Nib) (b : Byte) :
    (s.remap f).writeLogic x b = (s.writeLogic x b).remap f := by
  have hp : (s.remap f).params = s.params := rfl
  rw [State.writeLogic, State.writeLogic, hp]
  cases s.params.logicVF <;> rfl

theorem State.bumpI_remap (f : Remap) (s : State) (x : Nib) : (s.remap f).bumpI x = (s.bumpI x).remap f := by
  rw [State.bumpI_eq, State.bumpI_eq]; rfl

theorem State.storeRegs_remap (f : Remap) (s : State) (n : Nat) :
    (s.remap f).storeRegs n = (s.storeRegs n).remap f := by
  induction n with
  | zero => rfl
  | succ n ih => rw [State.storeRegs_succ, State.storeRegs_succ, ih]; rfl

theorem State.loadRegs_remap (f : Remap) (s : State) (n : Nat) :
    (s.remap f).loadRegs n = (s.loadRegs n).remap f := by
  induction n with
  | zero => rfl
  | succ n ih => rw [State.loadRegs_succ, State.loadRegs_succ, ih]; rfl

theorem State.keyDown_remap {f : Remap} (h : f.keys = id) (s : State) : (s.remap f).keyDown = s.keyDown := by
  funext k
  rw [State.keyDown, State.remap, h]; rfl

theorem State.lowestKey_remap {f : Remap} (h : f.keys = id) (s : State) : (s.remap f).lowestKey = s.lowestKey := by
  rw [State.lowestKey, State.keyDown_remap h, State.lowestKey]

/-! ### Each instruction commutes with a change that spares it -/

theorem execSys_remap (f : Remap) (nnn : Addr) (s : State) :
    execSys nnn (s.remap f) = andThen (execSys nnn s) (State.remap f) := by
  have hp : (s.remap f).params = s.params := rfl
  rw [execSys, execSys, hp]
  cases s.params.sysReports <;> rfl

/-- Under a change of the inputs alone RET finds the same depth and the same slot. -/
theorem execRet_remap {f : Remap} (h : f.stack = id) (ign : Nib) (s : State) :
    execRet ign (s.remap f) = andThen (execRet ign s) (State.remap f) := by
  obtain ⟨stack, keys, rnd⟩ := f
  obtain rfl : stack = id := h
  by_cases hsp : s.sp.val = 0
  · rw [execRet_of_zero ign s hsp, execRet_of_zero ign (s.remap _) hsp]; rfl
  · rw [execRet_of_ne_zero ign s hsp, execRet_of_ne_zero ign (s.remap _) hsp]; rfl

/-- Under a change of the inputs alone CALL finds the same depth and writes the same slot. -/
theorem execCall_remap {f : Remap} (h : f.stack = id) (nnn : Addr) (s : State) :
    execCall nnn (s.remap f) = andThen (execCall nnn s) (State.remap f) := by
  obtain ⟨stack, keys, rnd⟩ := f
  obtain rfl : stack = id := h
  by_cases hsp : s.sp.val < 16
  · rw [execCall_of_lt nnn s hsp, execCall_of_lt nnn (s.remap _) hsp]; rfl
  · have hfull : s.sp.val = 16 := by omega
    rw [execCall_of_full nnn s hfull, execCall_of_full nnn (s.remap _) hfull]; rfl

theorem execLdVxK_remap {f : Remap} (h : f.keys = id) (x : Nib) (s : State) :
    execLdVxK x (s.remap f) = andThen (execLdVxK x s) (State.remap f) := by
  rw [execLdVxK, execLdVxK, State.lowestKey_remap h]
  cases s.lowestKey <;> rfl

theorem execRnd_remap {f : Remap} (h : f.rnd = id) (x : Nib) (nn : Byte) (s : State) :
    execRnd x nn (s.remap f) = andThen (execRnd x nn s) (State.remap f) := by
  obtain ⟨stack, keys, rnd⟩ := f
  obtain rfl : rnd = id := h
  rfl

/-- An instruction commutes with every change that spares what it reads and writes. -/
theorem exec_remap {f : Remap} {i : Instr} (h : f.Spares i) (s : State) :
    exec i (s.remap f) = andThen (exec i s) (State.remap f) := by
  cases i with
  | cls | drw | jp | jpV0 | ldImm | addImm | ldReg | ldVxDT | ldDTVx | ldSTVx | ldI | addI | ldF | ldB => rfl
  | sys nnn => exact execSys_remap f nnn s
  | ret ign => exact execRet_remap h ign s
  | call nnn => exact execCall_remap h nnn s
  | seImm | sneImm | seReg | sneReg => exact congrArg _ (s.skipIf_remap f _)
  | skp | sknp =>
    simp only [exec, execSkp, execSknp, State.keyDown_remap h]
    exact congrArg _ (s.skipIf_remap f _)
  | orReg | andReg | xorReg => exact congrArg _ (s.writeLogic_remap f _ _)
  | addReg | subReg | shr | subnReg | shl => exact congrArg _ (s.writeFlagged_remap f _ _ _)
  | rnd x nn => exact execRnd_remap h x nn s
  | ldVxK x => exact execLdVxK_remap h x s
  | dump x =>
    simp only [exec, execDump, State.storeRegs_remap, State.bumpI_remap]; rfl
  | load x =>
    simp only [exec, execLoad, State.loadRegs_remap, State.bumpI_remap]; rfl

/-- Every word commutes with a change that spares its instruction, if it has one. -/
theorem executeWord_remap {f : Remap} {w : Word} (h : ∀ i, decode w = .ok i → f.Spares i) (s : State) :
    executeWord w (s.remap f) = andThen (executeWord w s) (State.remap f) := by
  cases hd : decode w with
  | ok i =>
    rw [executeWord_of_ok hd, executeWord_of_ok hd]
    exact exec_remap (h i hd) s
  | error e =>
    rw [executeWord_of_error hd, executeWord_of_error hd]; rfl

/-! ### Inputs that the word does not read -/

/-- A change of inputs that the word at PC does not read does not reach the state after the step: the end of the cycle
replaces both inputs. -/
theorem step_remap_inputs {f : Remap} {s : State} (hstack : f.stack = id)
    (h : ∀ i, decode s.fetchWord = .ok i → f.Spares i) : step (s.remap f) = step s := by
  obtain ⟨u, hu, -⟩ := executeWord_frame s.fetchWord s.beginCycle
  have hu' : executeWord (s.remap f).fetchWord (s.remap f).beginCycle = .next (u.remap f) := by
    have := executeWord_remap h s.beginCycle
    rwa [hu] at this
  have hend : (u.remap f).endCycle = u.endCycle := by
    rw [State.remap, hstack]; rfl
  rw [step_eq_of_executeWord hu, step_eq_of_executeWord hu', hend]

/-- Settles O53: a change of one input spares every instruction but its readers. -/
theorem inputsReachOnlyTheirInstructions : Obligations.InputsReachOnlyTheirInstructions := by
  unfold Obligations.InputsReachOnlyTheirInstructions
  refine fun s k b => ⟨fun hkeys => ?_, fun hrnd => ?_⟩
  · refine step_remap_inputs (f := ⟨id, fun _ => k, id⟩) (s := s) rfl fun i hd => ?_
    cases i with
    | skp x => exact absurd ⟨x, .inl hd⟩ hkeys
    | sknp x => exact absurd ⟨x, .inr (.inl hd)⟩ hkeys
    | ldVxK x => exact absurd ⟨x, .inr (.inr hd)⟩ hkeys
    | call | ret | rnd => rfl
    | _ => trivial
  · refine step_remap_inputs (f := ⟨id, id, fun _ => b⟩) (s := s) rfl fun i hd => ?_
    cases i with
    | rnd x nn => exact absurd ⟨x, nn, hd⟩ hrnd
    | call | ret | skp | sknp | ldVxK => rfl
    | _ => trivial

/-! ### Stack slots at SP and above -/

/-- Other slots, the same inputs. -/
def Remap.toStack (slots : Vector Word 16) : Remap := ⟨fun _ => slots, id, id⟩

/-- Two states that differ only in stale slots are one state with two contents of the stack that agree below SP. -/
theorem sameButStaleSlots_iff {s s' : State} :
    SameButStaleSlots s s' ↔ ∃ slots, s' = s.remap (Remap.toStack slots) ∧
      ∀ k : Fin 16, k.val < s.sp.val → slots[k.val] = s.stack[k.val] := by
  constructor
  · rintro ⟨heq, hlow⟩
    exact ⟨s'.stack, heq, hlow⟩
  · rintro ⟨slots, rfl, hlow⟩
    exact ⟨rfl, hlow⟩

/-- Slots that agree below SP still do where neither SP nor the stack changed. -/
theorem sameButStaleSlots_remap {s t : State} {slots : Vector Word 16}
    (hlow : ∀ k : Fin 16, k.val < s.sp.val → slots[k.val] = s.stack[k.val]) (hsp : t.sp = s.sp)
    (hstack : ∀ k : Fin 16, t.stack[k.val] = s.stack[k.val]) :
    SameButStaleSlots t (t.remap (Remap.toStack slots)) := by
  refine ⟨rfl, fun k hk => ?_⟩
  rw [hsp] at hk
  rw [hstack]
  exact hlow k hk

/-- Both states execute to a next state, and these again differ only in stale slots. -/
def KeepsStaleSlots (run : State → Result) : Prop :=
  ∀ s s', SameButStaleSlots s s' → ∃ t t', run s = .next t ∧ run s' = .next t' ∧ SameButStaleSlots t t'

/-- CALL makes the slot at SP live, and writes it with the same address in both states. -/
theorem execCall_keepsStaleSlots (nnn : Addr) : KeepsStaleSlots (execCall nnn) := by
  intro s s' h
  obtain ⟨slots, rfl, hlow⟩ := sameButStaleSlots_iff.1 h
  by_cases hsp : s.sp.val < 16
  · refine ⟨_, _, execCall_of_lt nnn s hsp, execCall_of_lt nnn (s.remap _) hsp, rfl, fun k hk => ?_⟩
    change (slots.set s.sp.val s.pc hsp)[k.val] = (s.stack.set s.sp.val s.pc hsp)[k.val]
    change k.val < s.sp.val + 1 at hk
    rw [Vector.getElem_set, Vector.getElem_set]
    split
    next => rfl
    next hne => exact hlow k (by omega)
  · have hfull : s.sp.val = 16 := by omega
    exact ⟨_, _, execCall_of_full nnn s hfull, execCall_of_full nnn (s.remap _) hfull,
      sameButStaleSlots_remap hlow rfl fun _ => rfl⟩

/-- RET reads the slot below SP, where both states agree, and makes it stale. -/
theorem execRet_keepsStaleSlots (ign : Nib) : KeepsStaleSlots (execRet ign) := by
  intro s s' h
  obtain ⟨slots, rfl, hlow⟩ := sameButStaleSlots_iff.1 h
  by_cases hsp : s.sp.val = 0
  · exact ⟨_, _, execRet_of_zero ign s hsp, execRet_of_zero ign (s.remap _) hsp,
      sameButStaleSlots_remap hlow rfl fun _ => rfl⟩
  · refine ⟨_, _, execRet_of_ne_zero ign s hsp, execRet_of_ne_zero ign (s.remap _) hsp,
      sameButStaleSlots_iff.2 ⟨slots, ?_, fun k hk => ?_⟩⟩
    · have hpop : slots[s.sp.val - 1] = s.stack[s.sp.val - 1] :=
        hlow ⟨s.sp.val - 1, by omega⟩ (Nat.sub_one_lt hsp)
      simp only [State.remap, Remap.toStack, hpop, id]
    · change k.val < s.sp.val - 1 at hk
      exact hlow k (by omega)

/-- A change of the slots spares every instruction that leaves SP alone. -/
theorem Remap.toStack_spares (slots : Vector Word 16) {i : Instr} (hsp : Part.sp ∉ mayChange i) :
    (Remap.toStack slots).Spares i := by
  cases i with
  | call | ret => simp [mayChange] at hsp
  | skp | sknp | ldVxK | rnd => rfl
  | _ => trivial

/-- An instruction that leaves SP alone leaves the slots alone. -/
theorem stack_not_mem_mayChange {i : Instr} (hsp : Part.sp ∉ mayChange i) : Part.stack ∉ mayChange i := by
  intro hstack
  obtain ⟨nnn, rfl⟩ := eq_call_of_stack hstack
  simp [mayChange] at hsp

/-- An instruction that leaves SP alone runs alike on both contents of the stack. -/
theorem exec_keepsStaleSlots_of_sp_not_mem {i : Instr} (hsp : Part.sp ∉ mayChange i) : KeepsStaleSlots (exec i) := by
  intro s s' h
  obtain ⟨slots, rfl, hlow⟩ := sameButStaleSlots_iff.1 h
  obtain ⟨t, ht, hframe⟩ := exec_frame i s
  have ht' : exec i (s.remap (Remap.toStack slots)) = .next (t.remap (Remap.toStack slots)) := by
    rw [exec_remap (Remap.toStack_spares slots hsp), ht]; rfl
  exact ⟨t, _, ht, ht',
    sameButStaleSlots_remap hlow (hframe .sp hsp) (hframe .stack (stack_not_mem_mayChange hsp))⟩

/-- Every instruction keeps stale slots unobserved. -/
theorem exec_keepsStaleSlots (i : Instr) : KeepsStaleSlots (exec i) := by
  by_cases hsp : Part.sp ∈ mayChange i
  · obtain ⟨nnn, rfl⟩ | ⟨ign, rfl⟩ := eq_call_or_ret_of_sp hsp
    · exact execCall_keepsStaleSlots nnn
    · exact execRet_keepsStaleSlots ign
  · exact exec_keepsStaleSlots_of_sp_not_mem hsp

/-- Every word, unknown or not, keeps stale slots unobserved. -/
theorem executeWord_keepsStaleSlots (w : Word) : KeepsStaleSlots (executeWord w) := by
  cases hd : decode w with
  | ok i =>
    rw [show executeWord w = exec i from funext (executeWord_of_ok hd)]
    exact exec_keepsStaleSlots i
  | error e =>
    intro s s' h
    obtain ⟨slots, rfl, hlow⟩ := sameButStaleSlots_iff.1 h
    exact ⟨_, _, executeWord_of_error hd s, executeWord_of_error hd _, sameButStaleSlots_remap hlow rfl fun _ => rfl⟩

theorem SameButStaleSlots.fetchWord_eq {s s' : State} (h : SameButStaleSlots s s') : s'.fetchWord = s.fetchWord := by
  rw [h.1]; rfl

theorem SameButStaleSlots.beginCycle {s s' : State} (h : SameButStaleSlots s s') :
    SameButStaleSlots s.beginCycle s'.beginCycle :=
  ⟨congrArg State.beginCycle h.1, h.2⟩

theorem SameButStaleSlots.endCycle {s s' : State} (h : SameButStaleSlots s s') :
    SameButStaleSlots s.endCycle s'.endCycle :=
  ⟨congrArg State.endCycle h.1, h.2⟩

/-- Settles O51: fetch, advance, execution and the end of the cycle each keep the relation. -/
theorem staleStackSlotsAreUnobservable : Obligations.StaleStackSlotsAreUnobservable := by
  unfold Obligations.StaleStackSlotsAreUnobservable
  intro s s' h
  obtain ⟨t, t', ht, ht', hrel⟩ := executeWord_keepsStaleSlots s.fetchWord _ _ h.beginCycle
  rw [← h.fetchWord_eq] at ht'
  exact ⟨_, _, step_eq_of_executeWord ht, step_eq_of_executeWord ht', hrel.endCycle⟩

end Sys2Proof.Machine
end

section
/-! PROOFS. Memory: the masked address of an access, the word stored at PC, and the canonical list as the one list of its
bytes. -/

namespace Sys2Proof.Machine

/-! ### Masked addresses -/

/-- Addresses that differ by a multiple of 4096 have one mask. -/
theorem maskAddr_add_mul (a k : Nat) : maskAddr (a + 4096 * k) = maskAddr a := by
  rw [maskAddr_eq_mod, maskAddr_eq_mod, Nat.add_mul_mod_self_left]

/-- Two consecutive addresses have different masks. -/
theorem maskAddr_ne_succ (a : Nat) : maskAddr a ≠ maskAddr (a + 1) := by
  rw [maskAddr_eq_mod, maskAddr_eq_mod]; omega

/-- A read depends on its address through the mask alone. -/
theorem State.readByte_congr (s : State) {a c : Nat} (h : maskAddr a = maskAddr c) : s.readByte a = s.readByte c := by
  rw [State.readByte, State.readByte, h]

/-- A write depends on its address through the mask alone. -/
theorem State.writeByte_congr (s : State) {a c : Nat} (h : maskAddr a = maskAddr c) (b : Byte) :
    s.writeByte a b = s.writeByte c b := by
  rw [State.writeByte, State.writeByte, h]

/-- Settles O55: both accesses mask their address. -/
theorem addressesWrapAtFourKilobytes : Obligations.AddressesWrapAtFourKilobytes := by
  unfold Obligations.AddressesWrapAtFourKilobytes
  intro s a k b
  exact ⟨s.readByte_congr (maskAddr_add_mul a k), s.writeByte_congr (maskAddr_add_mul a k) b⟩

/-! ### The word stored at PC -/

/-- All sixteen bits of a word are its table word. -/
theorem tableWord_toNat (w : Word) : tableWord 16 w.toNat = w := by
  rw [tableWord, Nat.mod_eq_of_lt w.isLt, BitVec.ofNat_toNat, BitVec.setWidth_eq]

/-- Bytes after a word is placed at PC: its high byte at PC, its low byte at PC + 1, every other byte as before
(20_memory R51). -/
theorem State.readByte_placeWord (s : State) (w : Word) (a : Nat) : (s.placeWord w).readByte a =
    if maskAddr a = maskAddr (s.pc.toNat + 1) then w.extractLsb' 0 8
    else if maskAddr a = maskAddr s.pc.toNat then w.extractLsb' 8 8 else s.readByte a := by
  rw [State.placeWord, State.readByte_writeByte, State.readByte_writeByte]

theorem State.readByte_placeWord_pc (s : State) (w : Word) :
    (s.placeWord w).readByte s.pc.toNat = w.extractLsb' 8 8 := by
  rw [State.readByte_placeWord, if_neg (maskAddr_ne_succ _), if_pos rfl]

theorem State.readByte_placeWord_succ (s : State) (w : Word) :
    (s.placeWord w).readByte (s.pc.toNat + 1) = w.extractLsb' 0 8 := by
  rw [State.readByte_placeWord, if_pos rfl]

/-- A word placed at PC is the word fetched there. -/
theorem State.fetchWord_placeWord (s : State) (w : Word) : (s.placeWord w).fetchWord = w := by
  have hpc : (s.placeWord w).pc = s.pc := rfl
  rw [State.fetchWord, hpc, State.readByte_placeWord_pc, State.readByte_placeWord_succ, wordOfBytes_extract]

theorem unchanged_placeWord (s : State) (w : Word) : Unchanged [.mem] s (s.placeWord w) :=
  unchanged_mem s _

theorem bytesSame_placeWord (s : State) (w : Word) :
    BytesSame [maskAddr s.pc.toNat, maskAddr (s.pc.toNat + 1)] s (s.placeWord w) := by
  intro a ha
  simp only [List.mem_cons, List.not_mem_nil, or_false, not_or] at ha
  rw [State.readByte_placeWord, if_neg ha.2, if_neg ha.1]

/-- Settles O13: the two bytes of a placed word are those the fetch reads. -/
theorem storedWordIsTheNextFetched : Obligations.StoredWordIsTheNextFetched := by
  unfold Obligations.StoredWordIsTheNextFetched
  refine ⟨fun s => rfl, fun s w => ?_⟩
  rw [State.withFetchWord, tableWord_toNat]
  exact ⟨s.fetchWord_placeWord w, s.readByte_placeWord_pc w, s.readByte_placeWord_succ w, unchanged_placeWord s w,
    bytesSame_placeWord s w⟩

/-! ### A canonical memory is determined by its bytes -/

/-- In a list of rising addresses, every entry is what its address reads as. -/
theorem Memory.read_of_mem (font : Font) {m : Memory} (h : m.Pairwise fun c d => c.1 < d.1) {c : Host.Cell}
    (hc : c ∈ m) : Memory.read font m c.1 = c.2 := by
  induction m with
  | nil => cases hc
  | cons d m ih =>
    obtain ⟨hd, hm⟩ := List.pairwise_cons.1 h
    rw [Memory.read_cons]
    rcases List.mem_cons.1 hc with rfl | hc
    · rw [if_pos rfl]
    · rw [if_neg (hd c hc).ne, ih hm hc]

/-- An address that does not read as its reset contents is listed with what it reads as. -/
theorem Memory.mem_of_read_ne_initial {font : Font} {m : Memory} {a : Nat}
    (h : Memory.read font m a ≠ Memory.initial font a) : (a, Memory.read font m a) ∈ m := by
  induction m with
  | nil => exact absurd rfl h
  | cons d m ih =>
    rw [Memory.read_cons] at h ⊢
    split at h
    next hd =>
      subst hd
      rw [if_pos rfl]
      exact List.mem_cons_self
    next hd =>
      rw [if_neg hd]
      exact List.mem_cons_of_mem d (ih h)

/-- The entries of a canonical memory are the bytes of the 4096 that do not read as their reset contents. -/
theorem Memory.mem_iff_of_wf {font : Font} {m : Memory} (h : Memory.wf font m) (c : Host.Cell) :
    c ∈ m ↔ c.1 < 4096 ∧ Memory.read font m c.1 = c.2 ∧ c.2 ≠ Memory.initial font c.1 := by
  obtain ⟨hrising, hentry⟩ := h
  constructor
  · intro hc
    exact ⟨(hentry c hc).1, Memory.read_of_mem font hrising hc, (hentry c hc).2⟩
  · rintro ⟨-, hread, hne⟩
    have hlisted := Memory.mem_of_read_ne_initial (hread.trans_ne hne)
    rwa [hread] at hlisted

/-- Settles O54: both lists hold the same entries, in rising order. -/
theorem canonicalMemoriesWithEqualBytesAreEqual : Obligations.CanonicalMemoriesWithEqualBytesAreEqual := by
  unfold Obligations.CanonicalMemoriesWithEqualBytesAreEqual
  intro font m m' hwf hwf' hread
  have : Std.Irrefl fun c d : Host.Cell => c.1 < d.1 := ⟨fun c => lt_irrefl c.1⟩
  have : Std.Antisymm fun c d : Host.Cell => c.1 < d.1 := ⟨fun c d h h' => absurd h h'.asymm⟩
  refine hwf.1.eq_of_mem_iff hwf'.1 fun c => ?_
  rw [Memory.mem_iff_of_wf hwf, Memory.mem_iff_of_wf hwf']
  exact and_congr_right fun hlt => by rw [hread c.1 hlt]

end Sys2Proof.Machine
end

section
/-! PROOFS. The invariant of a step: each instruction but two leaves the list of memory alone, those two write it byte by
byte, and no word raises more than one event. -/

namespace Sys2Proof.Machine

/-! ### The memory list under the shared operations -/

@[simp] theorem State.skipIf_mem (s : State) (c : Bool) : (s.skipIf c).mem = s.mem := by
  rw [State.skipIf_eq]; rfl

@[simp] theorem State.writeFlagged_mem (s : State) (x : Nib) (f : Bool) (b : Byte) :
    (s.writeFlagged x f b).mem = s.mem := by
  obtain ⟨v, hv⟩ := s.writeFlagged_frame x f b
  rw [hv]

@[simp] theorem State.writeLogic_mem (s : State) (x : Nib) (b : Byte) : (s.writeLogic x b).mem = s.mem := by
  obtain ⟨v, hv⟩ := s.writeLogic_frame x b
  rw [hv]

@[simp] theorem State.bumpI_mem (s : State) (x : Nib) : (s.bumpI x).mem = s.mem := by
  rw [State.bumpI_eq]; rfl

@[simp] theorem State.loadRegs_mem (s : State) (n : Nat) : (s.loadRegs n).mem = s.mem := by
  obtain ⟨v, hv⟩ := s.loadRegs_frame n
  rw [hv]

/-! ### One event at most, and which instructions write memory -/

/-- The memory list is the same, and at most one event was appended. -/
def MemSameOneEvent (s t : State) : Prop := t.mem = s.mem ∧ t.events.length ≤ s.events.length + 1

theorem memSameOneEvent_raise (s : State) (k : EventKind) (w : Word) : MemSameOneEvent s (s.raise k w) :=
  ⟨rfl, by simp⟩

/-- SYS reports or does nothing, by `SYS_REPORTS`. -/
theorem execSys_memSameOneEvent {nnn : Addr} {s t : State} (h : execSys nnn s = .next t) : MemSameOneEvent s t := by
  obtain rfl := Host.Outcome.next.inj h
  split
  next => exact memSameOneEvent_raise s _ _
  next => exact ⟨rfl, Nat.le_succ _⟩

/-- CALL pushes and jumps, or reports a full stack. -/
theorem execCall_memSameOneEvent {nnn : Addr} {s t : State} (h : execCall nnn s = .next t) : MemSameOneEvent s t := by
  by_cases hsp : s.sp.val < 16
  · rw [execCall_of_lt nnn s hsp] at h
    obtain rfl := Host.Outcome.next.inj h
    exact ⟨rfl, Nat.le_succ _⟩
  · rw [execCall_of_full nnn s (by omega)] at h
    obtain rfl := Host.Outcome.next.inj h
    exact memSameOneEvent_raise s _ _

/-- RET pops and jumps, or reports an empty stack. -/
theorem execRet_memSameOneEvent {ign : Nib} {s t : State} (h : execRet ign s = .next t) : MemSameOneEvent s t := by
  by_cases hsp : s.sp.val = 0
  · rw [execRet_of_zero ign s hsp] at h
    obtain rfl := Host.Outcome.next.inj h
    exact memSameOneEvent_raise s _ _
  · rw [execRet_of_ne_zero ign s hsp] at h
    obtain rfl := Host.Outcome.next.inj h
    exact ⟨rfl, Nat.le_succ _⟩

theorem execLdVxK_mem {x : Nib} {s t : State} (h : execLdVxK x s = .next t) : t.mem = s.mem := by
  obtain rfl := Host.Outcome.next.inj h
  split <;> rfl

/-- Only SYS, CALL and RET may raise an event. -/
theorem eq_sys_or_call_or_ret_of_events {i : Instr} (h : Part.events ∈ mayChange i) :
    (∃ nnn, i = .sys nnn) ∨ (∃ nnn, i = .call nnn) ∨ ∃ k, i = .ret k := by
  cases i <;> simp [mayChange] at h
  case sys nnn => exact .inl ⟨nnn, rfl⟩
  case call nnn => exact .inr (.inl ⟨nnn, rfl⟩)
  case ret k => exact .inr (.inr ⟨k, rfl⟩)

/-- An instruction raises at most one event (60_exceptions R240). -/
theorem exec_events_length_le {i : Instr} {s t : State} (h : exec i s = .next t) :
    t.events.length ≤ s.events.length + 1 := by
  by_cases hev : Part.events ∈ mayChange i
  · obtain ⟨nnn, rfl⟩ | ⟨nnn, rfl⟩ | ⟨ign, rfl⟩ := eq_sys_or_call_or_ret_of_events hev
    · exact (execSys_memSameOneEvent h).2
    · exact (execCall_memSameOneEvent h).2
    · exact (execRet_memSameOneEvent h).2
  · obtain ⟨u, hu, hframe⟩ := exec_frame i s
    obtain rfl := Host.Outcome.next.inj (hu.symm.trans h)
    have hsame : u.events = s.events := hframe .events hev
    rw [hsame]
    exact Nat.le_succ _

/-- An instruction leaves the parameters as they are. -/
theorem exec_params {i : Instr} {s t : State} (h : exec i s = .next t) : t.params = s.params := by
  obtain ⟨u, hu, hframe⟩ := exec_frame i s
  obtain rfl := Host.Outcome.next.inj (hu.symm.trans h)
  exact hframe .params (params_not_mem_mayChange i)

/-- An instruction whose frame holds memory leaves the very list, not only what its bytes read as. -/
theorem exec_mem_eq {i : Instr} (hmem : Part.mem ∉ mayChange i) {s t : State} (h : exec i s = .next t) :
    t.mem = s.mem := by
  cases i with
  | ldB | dump => simp [mayChange] at hmem
  | sys => exact (execSys_memSameOneEvent h).1
  | call => exact (execCall_memSameOneEvent h).1
  | ret => exact (execRet_memSameOneEvent h).1
  | ldVxK => exact execLdVxK_mem h
  | cls | drw | jp | jpV0 | ldImm | addImm | ldReg | rnd | ldVxDT | ldDTVx | ldSTVx | ldI | addI | ldF =>
    obtain rfl := Host.Outcome.next.inj h
    rfl
  | seImm | sneImm | seReg | sneReg | skp | sknp =>
    obtain rfl := Host.Outcome.next.inj h
    exact s.skipIf_mem _
  | orReg | andReg | xorReg =>
    obtain rfl := Host.Outcome.next.inj h
    exact s.writeLogic_mem _ _
  | addReg | subReg | shr | subnReg | shl =>
    obtain rfl := Host.Outcome.next.inj h
    exact s.writeFlagged_mem _ _ _
  | load =>
    obtain rfl := Host.Outcome.next.inj h
    rw [State.bumpI_mem, State.loadRegs_mem]

/-! ### Canonical memory -/

/-- LD B, Vx writes three bytes. -/
theorem execLdB_wf {x : Nib} {s t : State} (h : execLdB x s = .next t) (hwf : Memory.wf s.params.font s.mem) :
    Memory.wf t.params.font t.mem := by
  obtain rfl := Host.Outcome.next.inj h
  exact State.wf_writeByte (State.wf_writeByte (State.wf_writeByte hwf _ _) _ _) _ _

/-- LD [I], Vx stores registers and then moves I. -/
theorem execDump_mem_wf {x : Nib} {s t : State} (h : execDump x s = .next t) (hwf : Memory.wf s.params.font s.mem) :
    Memory.wf s.params.font t.mem := by
  obtain rfl := Host.Outcome.next.inj h
  rw [State.bumpI_mem]
  exact State.wf_storeRegs hwf _

/-- Every instruction keeps memory canonical (20_memory R54). -/
theorem exec_wf {i : Instr} {s t : State} (h : exec i s = .next t) (hwf : Memory.wf s.params.font s.mem) :
    Memory.wf t.params.font t.mem := by
  by_cases hmem : Part.mem ∈ mayChange i
  · obtain ⟨x, rfl | rfl⟩ := eq_ldB_or_dump_of_mem hmem
    · exact execLdB_wf h hwf
    · rw [exec_params h]
      exact execDump_mem_wf h hwf
  · rwa [exec_params h, exec_mem_eq hmem h]

/-- Execution from canonical memory and no event yet meets the invariant. -/
theorem executeWord_inv {w : Word} {s t : State} (h : executeWord w s = .next t)
    (hwf : Memory.wf s.params.font s.mem) (hev : s.events = []) : t.Inv := by
  cases hd : decode w with
  | ok i =>
    rw [executeWord_of_ok hd] at h
    have hlen := exec_events_length_le h
    rw [hev] at hlen
    exact ⟨exec_wf h hwf, hlen⟩
  | error e =>
    rw [executeWord_of_error hd] at h
    obtain rfl := Host.Outcome.next.inj h
    exact ⟨hwf, by simp [hev]⟩

/-- The end of a cycle touches neither memory nor events. -/
theorem State.Inv.endCycle {s : State} (h : s.Inv) : s.endCycle.Inv := h

/-- Settles O7: the cycle empties the event list before it executes, and its end keeps the invariant. -/
theorem everyStepKeepsTheInvariant : Obligations.EveryStepKeepsTheInvariant := by
  unfold Obligations.EveryStepKeepsTheInvariant
  rintro s t ⟨hwf, -⟩ h
  obtain ⟨u, hu, -⟩ := executeWord_frame s.fetchWord s.beginCycle
  obtain rfl := Host.Outcome.next.inj ((step_eq_of_executeWord hu).symm.trans h)
  exact (executeWord_inv hu hwf rfl).endCycle

end Sys2Proof.Machine
end

section
/-! PROOFS. Only the low twelve bits of I reach a step: an instruction that does not write I commutes with a change of its
page, and those that write it leave it in the same place within a page. -/

namespace Sys2Proof.Machine

/-! ### Another page of I under an operation -/

/-- Two states that differ only in the page of I are one state with two values of I that agree modulo 4096. -/
theorem sameButIndexPage_iff {s s' : State} :
    SameButIndexPage s s' ↔ ∃ j, s' = s.setI j ∧ j.toNat % 4096 = s.i.toNat % 4096 := by
  constructor
  · rintro ⟨heq, hpage⟩
    exact ⟨s'.i, heq, hpage⟩
  · rintro ⟨j, rfl, hpage⟩
    exact ⟨rfl, hpage⟩

theorem State.setI_setI (s : State) (j a : Word) : (s.setI j).setI a = s.setI a := rfl

theorem State.skipIf_setI (s : State) (j : Word) (c : Bool) : (s.setI j).skipIf c = (s.skipIf c).setI j := by
  rw [State.skipIf_eq, State.skipIf_eq]; rfl

theorem State.writeFlagged_setI (s : State) (j : Word) (x : Nib) (f : Bool) (b : Byte) :
    (s.setI j).writeFlagged x f b = (s.writeFlagged x f b).setI j := by
  rw [State.writeFlagged, State.writeFlagged, State.setI_params]
  cases s.params.flagOrder <;> rfl

theorem State.writeLogic_setI (s : State) (j : Word) (x : Nib) (b : Byte) :
    (s.setI j).writeLogic x b = (s.writeLogic x b).setI j := by
  rw [State.writeLogic, State.writeLogic, State.setI_params]
  cases s.params.logicVF <;> rfl

theorem execSys_setI (nnn : Addr) (s : State) (j : Word) :
    execSys nnn (s.setI j) = andThen (execSys nnn s) (State.setI · j) := by
  rw [execSys, execSys, State.setI_params]
  cases s.params.sysReports <;> rfl

theorem execRet_setI (ign : Nib) (s : State) (j : Word) :
    execRet ign (s.setI j) = andThen (execRet ign s) (State.setI · j) := by
  by_cases hsp : s.sp.val = 0
  · rw [execRet_of_zero ign s hsp, execRet_of_zero ign (s.setI j) hsp]; rfl
  · rw [execRet_of_ne_zero ign s hsp, execRet_of_ne_zero ign (s.setI j) hsp]; rfl

theorem execCall_setI (nnn : Addr) (s : State) (j : Word) :
    execCall nnn (s.setI j) = andThen (execCall nnn s) (State.setI · j) := by
  by_cases hsp : s.sp.val < 16
  · rw [execCall_of_lt nnn s hsp, execCall_of_lt nnn (s.setI j) hsp]; rfl
  · have hfull : s.sp.val = 16 := by omega
    rw [execCall_of_full nnn s hfull, execCall_of_full nnn (s.setI j) hfull]; rfl

theorem execLdVxK_setI (x : Nib) (s : State) (j : Word) :
    execLdVxK x (s.setI j) = andThen (execLdVxK x s) (State.setI · j) := by
  have hkey : (s.setI j).lowestKey = s.lowestKey := rfl
  rw [execLdVxK, execLdVxK, hkey]
  cases s.lowestKey <;> rfl

section samePage
variable {s : State} {j : Word} (hj : j.toNat % 4096 = s.i.toNat % 4096)
include hj

/-- Another page of I in a state with the same I. -/
theorem sameButIndexPage_setI {t : State} (hi : t.i = s.i) : SameButIndexPage t (t.setI j) :=
  ⟨rfl, by rw [hi]; exact hj⟩

/-- The address of a byte at I masks to the same byte on every page (20_memory R52). -/
theorem maskAddr_indexAddr_setI (k : Nat) : maskAddr ((s.setI j).indexAddr k) = maskAddr (s.indexAddr k) := by
  simp only [maskAddr_eq_mod, State.indexAddr, State.setI_i]
  omega

theorem readByte_indexAddr_setI (k : Nat) :
    (s.setI j).readByte ((s.setI j).indexAddr k) = s.readByte (s.indexAddr k) :=
  s.readByte_congr (maskAddr_indexAddr_setI hj k)

theorem writeByte_indexAddr_setI (t : State) (k : Nat) (b : Byte) :
    (t.setI j).writeByte ((s.setI j).indexAddr k) b = (t.writeByte (s.indexAddr k) b).setI j :=
  State.writeByte_congr _ (maskAddr_indexAddr_setI hj k) b

theorem drawSprite_setI (y0 x0 n : Nat) : (s.setI j).drawSprite y0 x0 n = s.drawSprite y0 x0 n := by
  simp only [State.drawSprite, readByte_indexAddr_setI hj, State.setI_fb]

theorem storeRegs_setI (n : Nat) : (s.setI j).storeRegs n = (s.storeRegs n).setI j := by
  induction n with
  | zero => rfl
  | succ n ih =>
    rw [State.storeRegs_succ, State.storeRegs_succ, ih, State.getV_setI, writeByte_indexAddr_setI hj]

theorem loadRegs_setI (n : Nat) : (s.setI j).loadRegs n = (s.loadRegs n).setI j := by
  induction n with
  | zero => rfl
  | succ n ih =>
    rw [State.loadRegs_succ, State.loadRegs_succ, ih, readByte_indexAddr_setI hj]; rfl

theorem execDrw_setI (x y n : Nib) : execDrw x y n (s.setI j) = andThen (execDrw x y n s) (State.setI · j) := by
  simp only [execDrw, State.spriteRow, State.spriteCol, State.getV_setI, drawSprite_setI hj]; rfl

theorem execLdB_setI (x : Nib) : execLdB x (s.setI j) = andThen (execLdB x s) (State.setI · j) := by
  simp only [execLdB, State.getV_setI, writeByte_indexAddr_setI hj]; rfl

/-- An instruction that does not write I commutes with a change of the page of I. -/
theorem exec_setI {i : Instr} (hi : Part.i ∉ mayChange i) : exec i (s.setI j) = andThen (exec i s) (State.setI · j) := by
  cases i with
  | ldI | addI | ldF | dump | load => simp [mayChange] at hi
  | cls | jp | jpV0 | ldImm | addImm | ldReg | rnd | ldVxDT | ldDTVx | ldSTVx => rfl
  | seImm | sneImm | seReg | sneReg | skp | sknp => exact congrArg _ (s.skipIf_setI j _)
  | orReg | andReg | xorReg => exact congrArg _ (s.writeLogic_setI j _ _)
  | addReg | subReg | shr | subnReg | shl => exact congrArg _ (s.writeFlagged_setI j _ _ _)
  | sys nnn => exact execSys_setI nnn s j
  | ret ign => exact execRet_setI ign s j
  | call nnn => exact execCall_setI nnn s j
  | ldVxK x => exact execLdVxK_setI x s j
  | drw x y n => exact execDrw_setI hj x y n
  | ldB x => exact execLdB_setI hj x

end samePage

/-! ### Two values of I on different pages stay so -/

/-- Values that agree modulo 4096 still do after the same addition modulo 2^16. -/
theorem toNat_add_mod_page {j k : Word} (h : j.toNat % 4096 = k.toNat % 4096) (a : Word) :
    (j + a).toNat % 4096 = (k + a).toNat % 4096 := by
  simp only [BitVec.toNat_add]
  omega

/-- `MEM_I_INCREMENT` adds the same to both values of I, or nothing (44_index_memory R197). -/
theorem SameButIndexPage.bumpI {s s' : State} (h : SameButIndexPage s s') (x : Nib) :
    SameButIndexPage (s.bumpI x) (s'.bumpI x) := by
  obtain ⟨j, rfl, hj⟩ := sameButIndexPage_iff.1 h
  rw [State.bumpI, State.bumpI, State.setI_params]
  cases s.params.memIIncrement with
  | none => exact h
  | xPlus1 =>
    refine ⟨rfl, ?_⟩
    simp only [State.setI_i, BitVec.add_assoc]
    exact toNat_add_mod_page hj _

/-- Both states execute to a next state, and these again differ only in the page of I. -/
def KeepsIndexPage (run : State → Result) : Prop :=
  ∀ s s', SameButIndexPage s s' → ∃ t t', run s = .next t ∧ run s' = .next t' ∧ SameButIndexPage t t'

/-- LD I, nnn leaves nothing of the old I. -/
theorem execLdI_keepsIndexPage (nnn : Addr) : KeepsIndexPage (execLdI nnn) := by
  intro s s' h
  obtain ⟨j, rfl, -⟩ := sameButIndexPage_iff.1 h
  exact ⟨_, _, rfl, rfl, rfl, rfl⟩

/-- LD F, Vx leaves nothing of the old I. -/
theorem execLdF_keepsIndexPage (x : Nib) : KeepsIndexPage (execLdF x) := by
  intro s s' h
  obtain ⟨j, rfl, -⟩ := sameButIndexPage_iff.1 h
  exact ⟨_, _, rfl, rfl, rfl, rfl⟩

/-- ADD I, Vx adds the same byte to both values of I. -/
theorem execAddI_keepsIndexPage (x : Nib) : KeepsIndexPage (execAddI x) := by
  intro s s' h
  obtain ⟨j, rfl, hj⟩ := sameButIndexPage_iff.1 h
  exact ⟨_, _, rfl, rfl, rfl, toNat_add_mod_page hj _⟩

/-- LD [I], Vx stores to the same bytes and then moves I. -/
theorem execDump_keepsIndexPage (x : Nib) : KeepsIndexPage (execDump x) := by
  intro s s' h
  obtain ⟨j, rfl, hj⟩ := sameButIndexPage_iff.1 h
  have hstore : SameButIndexPage (s.storeRegs (x.toNat + 1)) ((s.setI j).storeRegs (x.toNat + 1)) := by
    rw [storeRegs_setI hj]
    exact sameButIndexPage_setI hj (unchanged_storeRegs s _ .i (by simp))
  exact ⟨_, _, rfl, rfl, hstore.bumpI x⟩

/-- LD Vx, [I] loads from the same bytes and then moves I. -/
theorem execLoad_keepsIndexPage (x : Nib) : KeepsIndexPage (execLoad x) := by
  intro s s' h
  obtain ⟨j, rfl, hj⟩ := sameButIndexPage_iff.1 h
  have hload : SameButIndexPage (s.loadRegs (x.toNat + 1)) ((s.setI j).loadRegs (x.toNat + 1)) := by
    rw [loadRegs_setI hj]
    exact sameButIndexPage_setI hj (unchanged_loadRegs s _ .i (by simp))
  exact ⟨_, _, rfl, rfl, hload.bumpI x⟩

/-- An instruction that does not write I runs alike on every page of it. -/
theorem exec_keepsIndexPage_of_i_not_mem {i : Instr} (hi : Part.i ∉ mayChange i) : KeepsIndexPage (exec i) := by
  intro s s' h
  obtain ⟨j, rfl, hj⟩ := sameButIndexPage_iff.1 h
  obtain ⟨t, ht, hframe⟩ := exec_frame i s
  have ht' : exec i (s.setI j) = .next (t.setI j) := by
    rw [exec_setI hj hi, ht]; rfl
  exact ⟨t, _, ht, ht', sameButIndexPage_setI hj (hframe .i hi)⟩

/-- Every instruction keeps the page of I unobserved. -/
theorem exec_keepsIndexPage (i : Instr) : KeepsIndexPage (exec i) := by
  cases i with
  | ldI nnn => exact execLdI_keepsIndexPage nnn
  | ldF x => exact execLdF_keepsIndexPage x
  | addI x => exact execAddI_keepsIndexPage x
  | dump x => exact execDump_keepsIndexPage x
  | load x => exact execLoad_keepsIndexPage x
  | _ => exact exec_keepsIndexPage_of_i_not_mem (by simp [mayChange])

/-- Every word, unknown or not, keeps the page of I unobserved. -/
theorem executeWord_keepsIndexPage (w : Word) : KeepsIndexPage (executeWord w) := by
  intro s s' h
  cases hd : decode w with
  | ok i =>
    rw [executeWord_of_ok hd, executeWord_of_ok hd]
    exact exec_keepsIndexPage i s s' h
  | error e =>
    obtain ⟨j, rfl, hj⟩ := sameButIndexPage_iff.1 h
    exact ⟨_, _, executeWord_of_error hd s, executeWord_of_error hd _, rfl, hj⟩

/-! ### The cycle around the instruction -/

theorem SameButIndexPage.fetchWord_eq {s s' : State} (h : SameButIndexPage s s') : s'.fetchWord = s.fetchWord := by
  rw [h.1]; rfl

theorem SameButIndexPage.beginCycle {s s' : State} (h : SameButIndexPage s s') :
    SameButIndexPage s.beginCycle s'.beginCycle :=
  ⟨congrArg State.beginCycle h.1, h.2⟩

theorem SameButIndexPage.endCycle {s s' : State} (h : SameButIndexPage s s') :
    SameButIndexPage s.endCycle s'.endCycle :=
  ⟨congrArg State.endCycle h.1, h.2⟩

/-- Settles O52: fetch, advance, execution and the end of the cycle each keep the relation. -/
theorem onlyTheLowTwelveBitsOfIMatter : Obligations.OnlyTheLowTwelveBitsOfIMatter := by
  unfold Obligations.OnlyTheLowTwelveBitsOfIMatter
  intro s s' h
  obtain ⟨t, t', ht, ht', hrel⟩ := executeWord_keepsIndexPage s.fetchWord _ _ h.beginCycle
  rw [← h.fetchWord_eq] at ht'
  exact ⟨_, _, step_eq_of_executeWord ht, step_eq_of_executeWord ht', hrel.endCycle⟩

end Sys2Proof.Machine
end

section
/-! PROOFS. The encoding: the decoder and the encoder are inverse to each other, the decoder reads the opcode map row by row,
and the words it rejects are those of three families. -/

namespace Sys2Proof.Machine

/-! ### Encoding, then decoding -/

/-- Operands are read back from the fields that the encoder wrote, and the fixed fields select the row. The one hypothesis
needed is SYS's: its low byte is neither that of CLS nor that of RET (30_encoding R75). -/
theorem decode_encode {i : Instr} (h : i.wellFormed = true) : decode (encode i) = .ok i := by
  cases i with
  | sys nnn =>
    obtain ⟨hcls, hret⟩ : nnn.extractLsb' 0 8 ≠ 0xE0#8 ∧ nnn.extractLsb' 0 8 ≠ 0xEE#8 := by
      simpa [Instr.wellFormed] using h
    simp [encode, decode, decodeFamily0, fieldOp_addr, fieldNN_addr, fieldNNN_addr, hcls, hret]
  | cls | ret => simp [encode, decode, decodeFamily0, fieldOp_imm, fieldX_imm, fieldNN_imm]
  | jp | call | ldI | jpV0 => simp [encode, decode, fieldOp_addr, fieldNNN_addr]
  | seImm | sneImm | ldImm | addImm | rnd => simp [encode, decode, fieldOp_imm, fieldX_imm, fieldNN_imm]
  | seReg | sneReg | drw => simp [encode, decode, fieldOp_nibs, fieldX_nibs, fieldY_nibs, fieldN_nibs]
  | ldReg | orReg | andReg | xorReg | addReg | subReg | shr | subnReg | shl =>
    simp [encode, decode, decodeFamily8, fieldOp_nibs, fieldX_nibs, fieldY_nibs, fieldN_nibs]
  | skp | sknp => simp [encode, decode, decodeFamilyE, fieldOp_imm, fieldX_imm, fieldNN_imm]
  | ldVxDT | ldVxK | ldDTVx | ldSTVx | addI | ldF | ldB | dump | load =>
    simp [encode, decode, decodeFamilyF, fieldOp_imm, fieldX_imm, fieldNN_imm]

/-- Settles O8, constructor by constructor. -/
theorem decodeOfEncodeIsTheInstruction : Obligations.DecodeOfEncodeIsTheInstruction :=
  fun _ h => decode_encode h

/-- Settles O12: each word is the encoding of its instruction, and 0x8008 is in family 8 with a low nibble of no row. -/
theorem wordsOfTheTestVectorsDecode : Obligations.WordsOfTheTestVectorsDecode :=
  ⟨decode_encode (i := .cls 1) rfl, decode_encode (i := .call 0x400) rfl, decode_encode (i := .seReg 1 2 1) rfl,
    decode_encode (i := .addReg 15 15) rfl, decode_encode (i := .ldI 0x123) rfl, decode_encode (i := .drw 15 2 1) rfl,
    decode_encode (i := .sknp 1) rfl, decode_encode (i := .ldB 3) rfl, rfl⟩

/-! ### Decoding, then encoding -/

/-- The primary opcodes (30_encoding R74): first the four families of several rows, then those of one row, grouped by the
operand fields it has: `nnn`, then `x` and `nn`, then `x`, `y` and `n`. -/
theorem opcode_cases : ∀ op : Nib, op = 0x0#4 ∨ op = 0x8#4 ∨ op = 0xE#4 ∨ op = 0xF#4 ∨
    (op = 0x1#4 ∨ op = 0x2#4 ∨ op = 0xA#4 ∨ op = 0xB#4) ∨
    (op = 0x3#4 ∨ op = 0x4#4 ∨ op = 0x6#4 ∨ op = 0x7#4 ∨ op = 0xC#4) ∨
    (op = 0x5#4 ∨ op = 0x9#4 ∨ op = 0xD#4) := by
  decide

theorem decode_of_op0 {w : Word} (hop : fieldOp w = 0x0#4) : decode w = decodeFamily0 w := by
  simp [decode, hop]

theorem decode_of_op8 {w : Word} (hop : fieldOp w = 0x8#4) : decode w = decodeFamily8 w := by
  simp [decode, hop]

theorem decode_of_opE {w : Word} (hop : fieldOp w = 0xE#4) : decode w = decodeFamilyE w := by
  simp [decode, hop]

theorem decode_of_opF {w : Word} (hop : fieldOp w = 0xF#4) : decode w = decodeFamilyF w := by
  simp [decode, hop]

/-- The instruction is well-formed and its word is `w` (30_encoding R76, R79). -/
def WordOf (w : Word) (i : Instr) : Prop := i.wellFormed = true ∧ encode i = w

theorem wordOf_of_decodeFamily0 {w : Word} {i : Instr} (hop : fieldOp w = 0x0#4) (h : decodeFamily0 w = .ok i) :
    WordOf w i := by
  have himm := op_append_x_nn w
  unfold decodeFamily0 at h
  split at h
  case isTrue hnn => cases h; rw [hop, hnn] at himm; exact ⟨rfl, himm⟩
  split at h
  case isTrue hnn => cases h; rw [hop, hnn] at himm; exact ⟨rfl, himm⟩
  case isFalse hcls hret =>
    cases h
    have hlow : (fieldNNN w).extractLsb' 0 8 = fieldNN w := by rw [← fieldNN_addr (fieldOp w), op_append_nnn]
    have haddr := op_append_nnn w
    rw [hop] at haddr
    exact ⟨by simp [Instr.wellFormed, hlow, hcls, hret], haddr⟩

theorem wordOf_of_decodeFamily8 {w : Word} {i : Instr} (hop : fieldOp w = 0x8#4) (h : decodeFamily8 w = .ok i) :
    WordOf w i := by
  have hnibs := op_append_x_y_n w
  unfold decodeFamily8 at h
  split at h <;> cases h
  all_goals next hn => rw [hop, hn] at hnibs; exact ⟨rfl, hnibs⟩

theorem wordOf_of_decodeFamilyE {w : Word} {i : Instr} (hop : fieldOp w = 0xE#4) (h : decodeFamilyE w = .ok i) :
    WordOf w i := by
  have himm := op_append_x_nn w
  unfold decodeFamilyE at h
  split at h <;> cases h
  all_goals next hnn => rw [hop, hnn] at himm; exact ⟨rfl, himm⟩

theorem wordOf_of_decodeFamilyF {w : Word} {i : Instr} (hop : fieldOp w = 0xF#4) (h : decodeFamilyF w = .ok i) :
    WordOf w i := by
  have himm := op_append_x_nn w
  unfold decodeFamilyF at h
  split at h <;> cases h
  all_goals next hnn => rw [hop, hnn] at himm; exact ⟨rfl, himm⟩

/-- In a family of one row, the word is its primary opcode followed by the operands that the row reads. -/
theorem wordOf_of_decode {w : Word} {i : Instr} (h : decode w = .ok i) : WordOf w i := by
  have haddr := op_append_nnn w
  have himm := op_append_x_nn w
  have hnibs := op_append_x_y_n w
  obtain hop | hop | hop | hop | hop | hop | hop := opcode_cases (fieldOp w)
  · exact wordOf_of_decodeFamily0 hop (decode_of_op0 hop ▸ h)
  · exact wordOf_of_decodeFamily8 hop (decode_of_op8 hop ▸ h)
  · exact wordOf_of_decodeFamilyE hop (decode_of_opE hop ▸ h)
  · exact wordOf_of_decodeFamilyF hop (decode_of_opF hop ▸ h)
  · rcases hop with hop | hop | hop | hop <;> simp only [decode, hop] at h haddr <;> cases h <;> exact ⟨rfl, haddr⟩
  · rcases hop with hop | hop | hop | hop | hop <;> simp only [decode, hop] at h himm <;> cases h <;>
      exact ⟨rfl, himm⟩
  · rcases hop with hop | hop | hop <;> simp only [decode, hop] at h hnibs <;> cases h <;> exact ⟨rfl, hnibs⟩

/-- Settles O9, family by family. -/
theorem encodeOfDecodeIsTheWord : Obligations.EncodeOfDecodeIsTheWord :=
  fun _ _ => wordOf_of_decode

/-! ### The opcode map -/

/-- What a row with mask 0xF000 compares with its pattern. -/
theorem and_0xF000 (w : Word) : w &&& 0xF000#16 = fieldOp w ++ 0x000#12 := by
  rw [← Laws.RowMatch.op_addr (fieldOp w) (fieldNNN w), op_append_nnn]

/-- What a row with mask 0xF00F compares with its pattern. -/
theorem and_0xF00F (w : Word) : w &&& 0xF00F#16 = fieldOp w ++ 0x0#4 ++ 0x0#4 ++ fieldN w := by
  rw [← Laws.RowMatch.op_n_nibs (fieldOp w) (fieldX w) (fieldY w) (fieldN w), op_append_x_y_n]

/-- What a row with mask 0xF0FF compares with its pattern. -/
theorem and_0xF0FF (w : Word) : w &&& 0xF0FF#16 = fieldOp w ++ 0x0#4 ++ fieldNN w := by
  rw [← Laws.RowMatch.op_nn_imm (fieldOp w) (fieldX w) (fieldNN w), op_append_x_nn]

/-- A row with mask 0xF000 matches the words of its primary opcode. -/
@[simp] theorem and_0xF000_beq (w : Word) {p : Word} (hnnn : p.extractLsb' 0 12 = 0x000#12) :
    (w &&& 0xF000#16 == p) = (fieldOp w == p.extractLsb' 12 4) := by
  rw [Bool.eq_iff_iff, beq_iff_eq, beq_iff_eq, and_0xF000]
  constructor
  · rintro rfl; exact (fieldOp_addr ..).symm
  · intro hop; rw [hop, ← hnnn]; exact op_append_nnn p

/-- A row with mask 0xF00F matches the words of its primary opcode and its low nibble. -/
@[simp] theorem and_0xF00F_beq (w : Word) {p : Word} (hx : p.extractLsb' 8 4 = 0x0#4) (hy : p.extractLsb' 4 4 = 0x0#4) :
    (w &&& 0xF00F#16 == p) = (fieldOp w == p.extractLsb' 12 4 && fieldN w == p.extractLsb' 0 4) := by
  have hp := op_append_x_y_n p
  rw [fieldX, fieldY, hx, hy] at hp
  rw [Bool.eq_iff_iff, Bool.and_eq_true, beq_iff_eq, beq_iff_eq, beq_iff_eq, and_0xF00F]
  constructor
  · rintro rfl; exact ⟨(fieldOp_nibs ..).symm, (fieldN_nibs ..).symm⟩
  · rintro ⟨hop, hn⟩; rw [hop, hn]; exact hp

/-- A row with mask 0xF0FF matches the words of its primary opcode and its low byte. -/
@[simp] theorem and_0xF0FF_beq (w : Word) {p : Word} (hx : p.extractLsb' 8 4 = 0x0#4) :
    (w &&& 0xF0FF#16 == p) = (fieldOp w == p.extractLsb' 12 4 && fieldNN w == p.extractLsb' 0 8) := by
  have hp := op_append_x_nn p
  rw [fieldX, hx] at hp
  rw [Bool.eq_iff_iff, Bool.and_eq_true, beq_iff_eq, beq_iff_eq, beq_iff_eq, and_0xF0FF]
  constructor
  · rintro rfl; exact ⟨(fieldOp_imm ..).symm, (fieldNN_imm ..).symm⟩
  · rintro ⟨hop, hnn⟩; rw [hop, hnn]; exact hp

/-- The opcode map read as a decoder: the first row that matches gives the instruction (30_encoding R76). -/
def decodeByMap (w : Word) : Except Reject Instr :=
  match firstRow w with
  | some r => .ok (r.make w)
  | none => .error (.unknownInstruction w)

/-! The second level of the dispatch against the rows of its family, row by row; the last case of a split is the word that
no row matches. -/

theorem decodeByMap_family0 {w : Word} (hop : fieldOp w = 0x0#4) : decodeByMap w = decodeFamily0 w := by
  unfold decodeFamily0
  split
  case isTrue hnn => simp [decodeByMap, firstRow, opcodeMap, hop, hnn]
  split
  case isTrue hnn => simp [decodeByMap, firstRow, opcodeMap, hop, hnn]
  case isFalse hcls hret => simp [decodeByMap, firstRow, opcodeMap, hop, hcls, hret]

theorem decodeByMap_family8 {w : Word} (hop : fieldOp w = 0x8#4) : decodeByMap w = decodeFamily8 w := by
  unfold decodeFamily8
  split <;> simp_all [decodeByMap, firstRow, opcodeMap]

theorem decodeByMap_familyE {w : Word} (hop : fieldOp w = 0xE#4) : decodeByMap w = decodeFamilyE w := by
  unfold decodeFamilyE
  split <;> simp_all [decodeByMap, firstRow, opcodeMap]

theorem decodeByMap_familyF {w : Word} (hop : fieldOp w = 0xF#4) : decodeByMap w = decodeFamilyF w := by
  unfold decodeFamilyF
  split <;> simp_all [decodeByMap, firstRow, opcodeMap]

/-- In the twelve other families the one row of the family is the first that matches. -/
theorem decodeByMap_eq_decode (w : Word) : decodeByMap w = decode w := by
  obtain hop | hop | hop | hop | hops := opcode_cases (fieldOp w)
  · rw [decodeByMap_family0 hop, decode_of_op0 hop]
  · rw [decodeByMap_family8 hop, decode_of_op8 hop]
  · rw [decodeByMap_familyE hop, decode_of_opE hop]
  · rw [decodeByMap_familyF hop, decode_of_opF hop]
  · rcases hops with (hop | hop | hop | hop) | (hop | hop | hop | hop | hop) | (hop | hop | hop) <;>
      simp [decodeByMap, decode, firstRow, opcodeMap, hop]

/-- Settles O10, family by family. -/
theorem decoderIsTheOpcodeMap : Obligations.DecoderIsTheOpcodeMap :=
  fun w => (decodeByMap_eq_decode w).symm

/-! ### The unknown words -/

theorem decodeFamily0_known (w : Word) : ∃ i, decodeFamily0 w = .ok i := by
  unfold decodeFamily0
  split_ifs <;> exact ⟨_, rfl⟩

theorem decodeFamily8_unknown_iff (w : Word) : (∀ i, decodeFamily8 w ≠ .ok i) ↔
    fieldN w ∉ [0x0#4, 0x1#4, 0x2#4, 0x3#4, 0x4#4, 0x5#4, 0x6#4, 0x7#4, 0xE#4] := by
  unfold decodeFamily8
  split <;> simp_all

theorem decodeFamilyE_unknown_iff (w : Word) :
    (∀ i, decodeFamilyE w ≠ .ok i) ↔ fieldNN w ∉ [0x9E#8, 0xA1#8] := by
  unfold decodeFamilyE
  split <;> simp_all

theorem decodeFamilyF_unknown_iff (w : Word) : (∀ i, decodeFamilyF w ≠ .ok i) ↔
    fieldNN w ∉ [0x07#8, 0x0A#8, 0x15#8, 0x18#8, 0x1E#8, 0x29#8, 0x33#8, 0x55#8, 0x65#8] := by
  unfold decodeFamilyF
  split <;> simp_all

/-- The low nibbles of family 8 that no row has (30_encoding R80). -/
theorem not_mem_family8_iff : ∀ n : Nib,
    n ∉ [0x0#4, 0x1#4, 0x2#4, 0x3#4, 0x4#4, 0x5#4, 0x6#4, 0x7#4, 0xE#4] ↔
      n ∈ [0x8#4, 0x9#4, 0xA#4, 0xB#4, 0xC#4, 0xD#4, 0xF#4] := by
  decide

/-- Settles O11: three families have words that no row matches, every word of the other thirteen has its instruction. -/
theorem unknownWordsAreThoseOfThreeFamilies : Obligations.UnknownWordsAreThoseOfThreeFamilies := by
  unfold Obligations.UnknownWordsAreThoseOfThreeFamilies
  intro w
  rw [← not_mem_family8_iff, ← decodeFamily8_unknown_iff, ← decodeFamilyE_unknown_iff, ← decodeFamilyF_unknown_iff]
  obtain hop | hop | hop | hop | hops := opcode_cases (fieldOp w)
  · obtain ⟨i, hi⟩ := decodeFamily0_known w
    simp [decode_of_op0, hop, hi]
  · simp [decode_of_op8, hop]
  · simp [decode_of_opE, hop]
  · simp [decode_of_opF, hop]
  · rcases hops with (hop | hop | hop | hop) | (hop | hop | hop | hop | hop) | (hop | hop | hop) <;> simp [decode, hop]

/-! ### Assembly lines -/

/-- Settles O14, constructor by constructor: the mnemonic and the operands of a line select the instruction that wrote it;
JP V0 is the one that also compares a register. -/
theorem assemblyLineStandsForItsInstruction : Obligations.AssemblyLineStandsForItsInstruction := by
  unfold Obligations.AssemblyLineStandsForItsInstruction
  refine ⟨fun i => ?_, fun x => ⟨rfl, rfl⟩⟩
  cases i <;> rfl

end Sys2Proof.Machine
end

section
/-! PROOFS. The interpreter cycle: every step completes, an unknown word only reports itself, the tick of the timers, and
the inputs given to a step. -/

namespace Sys2Proof.Machine

/-! ### The step around its word -/

/-- A step at a word that decodes is its instruction after the advance, and then the end of the cycle. -/
theorem step_of_exec {s t : State} {i : Instr} (hd : decode s.fetchWord = .ok i) (h : exec i s.beginCycle = .next t) :
    step s = .next t.endCycle :=
  step_eq_of_executeWord ((executeWord_of_ok hd _).trans h)

/-- A step at an unknown word is its event after the advance, and then the end of the cycle (40_cycle R105). -/
theorem step_of_unknown {s : State} {r : Reject} (hd : decode s.fetchWord = .error r) :
    step s = .next (s.beginCycle.raise .unknownInstruction s.fetchWord).endCycle :=
  step_eq_of_executeWord (executeWord_of_error hd _)

/-- Settles O1: `beginCycle` and `endCycle` are the advance and the tick that the statement writes out. -/
theorem stepRunsTheDecodedInstruction : Obligations.StepRunsTheDecodedInstruction := by
  unfold Obligations.StepRunsTheDecodedInstruction
  exact fun s t i hd h => step_of_exec hd h

/-- Settles O2: every word answers a next state, and the cycle goes on from it. -/
theorem everyStepExecutesOneWordAndCompletes : Obligations.EveryStepExecutesOneWordAndCompletes := by
  unfold Obligations.EveryStepExecutesOneWordAndCompletes
  intro s
  obtain ⟨u, hu, -⟩ := executeWord_frame s.fetchWord s.beginCycle
  exact ⟨u, hu, step_eq_of_executeWord hu⟩

/-! ### The tick -/

/-- A tick subtracts one and stops at zero (40_cycle R106). -/
theorem tickTimer_toNat (b : Byte) : (tickTimer b).toNat = ticked b := by
  unfold tickTimer ticked
  split
  next h => simp [h]
  next h => bv_omega

/-- A nonzero timer is one more than its tick. -/
theorem tickTimer_toNat_add_one {b : Byte} (h : b ≠ 0#8) : (tickTimer b).toNat + 1 = b.toNat := by
  rw [tickTimer_toNat, ticked]
  bv_omega

/-- A zero timer stays zero. -/
theorem tickTimer_of_zero {b : Byte} (h : b = 0#8) : tickTimer b = 0#8 :=
  (if_pos h).trans h

/-- Settles O3: the frame of a step at an unknown word, and the parts that its cycle and its event write. -/
theorem unknownWordOnlyAdvancesTicksAndReports : Obligations.UnknownWordOnlyAdvancesTicksAndReports := by
  unfold Obligations.UnknownWordOnlyAdvancesTicksAndReports
  intro s r hd
  have hstep := step_of_unknown hd
  have hframe := unchanged_of_step hstep
  rw [wordMayChange_of_error hd] at hframe
  exact ⟨_, hstep, hframe.mono (by decide), rfl, tickTimer_toNat _, tickTimer_toNat _, by simp⟩

/-- Settles O4: the timers after a step are those after the execution, each ticked. -/
theorem bothTimersTickOnceAfterEveryExecution : Obligations.BothTimersTickOnceAfterEveryExecution := by
  unfold Obligations.BothTimersTickOnceAfterEveryExecution
  intro s
  obtain ⟨u, hu, -⟩ := executeWord_frame s.fetchWord s.beginCycle
  exact ⟨u, u.endCycle, hu, step_eq_of_executeWord hu, tickTimer_toNat_add_one, tickTimer_of_zero,
    tickTimer_toNat_add_one, tickTimer_of_zero⟩

/-! ### The inputs given to a step -/

/-- A step with given inputs is its instruction with these inputs in the state: the fetch does not read them. -/
theorem stepWith_of_exec {s t : State} {k : BitVec 16} {b : Byte} {i : Instr} (hd : decode s.fetchWord = .ok i)
    (h : exec i (s.withInputs k b).beginCycle = .next t) : stepWith s k b = .next t.endCycle :=
  step_of_exec (s := s.withInputs k b) hd h

/-- The low nibble of a byte is its number modulo 16 (45_timers_keys R211). -/
theorem State.keyIndex_eq_mod (s : State) (x : Nib) : s.keyIndex x = (s.getV x).toNat % 16 := by
  rw [State.keyIndex, BitVec.toNat_and]
  exact Nat.and_two_pow_sub_one_eq_mod _ 4

/-- The key tested by EX9E and EXA1 is one of the given ones. -/
theorem State.keyDown_keyIndex_withInputs (s : State) (k : BitVec 16) (b : Byte) (x : Nib) :
    (s.withInputs k b).beginCycle.keyDown ((s.withInputs k b).beginCycle.keyIndex x) =
      k.getLsbD ((s.getV x).toNat % 16) := by
  rw [State.keyIndex_eq_mod]; rfl

/-- A key that is down with none below it is the lowest (the converse of `State.lowestKey_some`). -/
theorem State.lowestKey_eq_some {s : State} {j : Nat} (hj : j < 16) (hdown : s.keyDown j = true)
    (hlow : ∀ l, l < j → s.keyDown l = false) : s.lowestKey = some j := by
  rw [State.lowestKey, List.find?_range_eq_some]
  exact ⟨hdown, List.mem_range.2 hj, fun l hl => by rw [hlow l hl]; rfl⟩

/-- No key is found when none is down. -/
theorem State.lowestKey_of_keys_zero {s : State} (h : s.keys = 0#16) : s.lowestKey = none := by
  rw [State.lowestKey, List.find?_range_eq_none]
  simp [State.keyDown, h]

/-- LD Vx, K with a key down (45_timers_keys R217). -/
theorem execLdVxK_of_some {s : State} {j : Nat} (h : s.lowestKey = some j) (x : Nib) :
    execLdVxK x s = .next (s.setV x (BitVec.ofNat 8 j)) := by
  rw [execLdVxK, h]

/-- LD Vx, K with no key down rewinds PC (45_timers_keys R218). -/
theorem execLdVxK_of_none {s : State} (h : s.lowestKey = none) (x : Nib) :
    execLdVxK x s = .next (s.setPC (s.pc - 2#16)) := by
  rw [execLdVxK, h]

/-- PC after a conditional skip, four or two further than the instruction's address (41_control_flow R125). -/
theorem State.skipIf_beginCycle_pc (s : State) (c : Bool) :
    (s.beginCycle.skipIf c).pc = if c then s.pc + 4#16 else s.pc + 2#16 := by
  rw [State.skipIf_eq, State.setPC_pc, State.beginCycle_pc, BitVec.add_assoc]
  rfl

/-- RND reaches CXNN (10_state R42). -/
theorem stepWith_rnd {s : State} {x : Nib} {nn : Byte} (hd : decode s.fetchWord = .ok (.rnd x nn)) (k : BitVec 16)
    (b : Byte) : ∃ t, stepWith s k b = .next t ∧ t.getV x = b &&& nn :=
  ⟨_, stepWith_of_exec hd rfl, (State.getV_setV _ x x _).trans (if_pos rfl)⟩

/-- KEYS reaches EX9E (10_state R41). -/
theorem stepWith_skp {s : State} {x : Nib} (hd : decode s.fetchWord = .ok (.skp x)) (k : BitVec 16) (b : Byte) :
    ∃ t, stepWith s k b = .next t ∧
      t.pc = if k.getLsbD ((s.getV x).toNat % 16) then s.pc + 4#16 else s.pc + 2#16 := by
  refine ⟨_, stepWith_of_exec hd rfl, ?_⟩
  rw [State.endCycle_pc, State.skipIf_beginCycle_pc, State.keyDown_keyIndex_withInputs]
  rfl

/-- KEYS reaches EXA1 (10_state R41). -/
theorem stepWith_sknp {s : State} {x : Nib} (hd : decode s.fetchWord = .ok (.sknp x)) (k : BitVec 16) (b : Byte) :
    ∃ t, stepWith s k b = .next t ∧
      t.pc = if k.getLsbD ((s.getV x).toNat % 16) then s.pc + 2#16 else s.pc + 4#16 := by
  refine ⟨_, stepWith_of_exec hd rfl, ?_⟩
  rw [State.endCycle_pc, State.skipIf_beginCycle_pc, State.keyDown_keyIndex_withInputs]
  cases k.getLsbD ((s.getV x).toNat % 16) <;> rfl

/-- KEYS reaches FX0A: the lowest key, or a wait (45_timers_keys R217, R218). -/
theorem stepWith_ldVxK {s : State} {x : Nib} (hd : decode s.fetchWord = .ok (.ldVxK x)) (k : BitVec 16) (b : Byte) :
    ∃ t, stepWith s k b = .next t ∧
      (∀ j, j < 16 → k.getLsbD j = true → (∀ l, l < j → k.getLsbD l = false) →
        (t.getV x).toNat = j ∧ t.pc = s.pc + 2#16) ∧
      (k = 0#16 → (∀ r, t.getV r = s.getV r) ∧ t.pc = s.pc) := by
  obtain ⟨u, hu, -⟩ := execLdVxK_frame x (s.withInputs k b).beginCycle
  refine ⟨u.endCycle, stepWith_of_exec hd hu, fun j hj hdown hlow => ?_, fun hk => ?_⟩
  · have hkey : (s.withInputs k b).beginCycle.lowestKey = some j := State.lowestKey_eq_some hj hdown hlow
    rw [execLdVxK_of_some hkey] at hu
    obtain rfl := Host.Outcome.next.inj hu
    have hv : ((s.withInputs k b).beginCycle.setV x (BitVec.ofNat 8 j)).getV x = BitVec.ofNat 8 j := by
      rw [State.getV_setV, if_pos rfl]
    exact ⟨(congrArg BitVec.toNat hv).trans (Nat.mod_eq_of_lt (by omega)), rfl⟩
  · rw [execLdVxK_of_none (State.lowestKey_of_keys_zero hk)] at hu
    obtain rfl := Host.Outcome.next.inj hu
    exact ⟨fun _ => rfl, BitVec.add_sub_cancel s.pc 2#16⟩

/-- Settles O59: each of the four readers, with the given inputs in the state it runs on. -/
theorem givenInputsReachTheirInstructions : Obligations.GivenInputsReachTheirInstructions := by
  unfold Obligations.GivenInputsReachTheirInstructions
  exact fun s k b x => ⟨fun nn hd => stepWith_rnd hd k b, fun hd => stepWith_skp hd k b,
    fun hd => stepWith_sknp hd k b, fun hd => stepWith_ldVxK hd k b⟩

end Sys2Proof.Machine
end

section
/-! PROOFS. Control transfer: the jumps, CALL and RET with the stack they share, SYS, and the four skips that compare. -/

namespace Sys2Proof.Machine

/-! ### The numbers that are jumped to -/

/-- An address field keeps its number as a word (30_encoding R72). -/
@[simp] theorem zextAddr_toNat (nnn : Addr) : (zextAddr nnn).toNat = nnn.toNat :=
  BitVec.toNat_setWidth_of_le (by decide)

/-- A byte keeps its number as a word (00_scope R10). -/
@[simp] theorem zextByte_toNat (b : Byte) : (zextByte b).toNat = b.toNat :=
  BitVec.toNat_setWidth_of_le (by decide)

/-- A byte plus an address field does not reach 2^16 (41_control_flow R129). -/
theorem zextByte_add_zextAddr_toNat (b : Byte) (nnn : Addr) :
    (zextByte b + zextAddr nnn).toNat = b.toNat + nnn.toNat := by
  rw [BitVec.toNat_add, zextByte_toNat, zextAddr_toNat]
  exact Nat.mod_eq_of_lt (by omega)

/-! ### CALL and RET -/

/-- Whatever is written to the stack slots, nothing else changes. -/
theorem unchanged_stack (s : State) (slots : Vector Word 16) : Unchanged [.stack] s { s with stack := slots } := by
  intro p hp; cases p <;> simp at hp <;> simp [Part.same, State.getV, State.readByte]

/-- Settles O16, by whether the stack is full. -/
theorem callPushesAndJumpsOrReports : Obligations.CallPushesAndJumpsOrReports := by
  unfold Obligations.CallPushesAndJumpsOrReports
  intro nnn s
  by_cases hsp : s.sp.val < 16
  · have hframe := ((State.unchanged_push (State.push_eq_some s s.pc hsp)).trans
      (unchanged_setPC _ (zextAddr nnn))).mono (c := [.pc, .sp, .stack]) (by simp)
    exact ⟨_, execCall_of_lt nnn s hsp,
      fun _ => ⟨hframe, zextAddr_toNat nnn, rfl, Vector.getElem_set_self hsp,
        fun k hk => Vector.getElem_set_ne hsp k.isLt hk.symm⟩,
      fun hfull => absurd hfull hsp.ne⟩
  · have hfull : s.sp.val = 16 := by omega
    exact ⟨_, execCall_of_full nnn s hfull, fun h => absurd h hsp, fun _ => ⟨unchanged_raise s _ _, rfl⟩⟩

/-- Settles O17, by whether the stack is empty. -/
theorem retPopsOrReports : Obligations.RetPopsOrReports := by
  unfold Obligations.RetPopsOrReports
  intro k s
  by_cases hsp : s.sp.val = 0
  · exact ⟨_, execRet_of_zero k s hsp, fun h => absurd hsp h, fun _ => ⟨unchanged_raise s _ _, rfl⟩⟩
  · have hframe := ((State.unchanged_pop (State.pop_eq_some s hsp)).trans
      (unchanged_setPC _ (s.stack[s.sp.val - 1]'(by omega)))).mono (c := [.pc, .sp]) (by simp)
    exact ⟨_, execRet_of_ne_zero k s hsp,
      fun _ => ⟨hframe, Nat.sub_add_cancel (Nat.pos_of_ne_zero hsp), rfl⟩, fun h => absurd h hsp⟩

/-- RET after a CALL that pushed: the state before the CALL, but for the slot it wrote. -/
theorem execRet_of_execCall {nnn : Addr} {s t : State} (hsp : s.sp.val < 16) (hcall : execCall nnn s = .next t)
    (k : Nib) : execRet k t = .next { s with stack := s.stack.set s.sp.val s.pc hsp } := by
  rw [execCall_of_lt nnn s hsp] at hcall
  obtain rfl := Host.Outcome.next.inj hcall
  rw [execRet_of_ne_zero k _ (Nat.succ_ne_zero _)]
  simp

/-- Settles O18: only the slot at SP differs after both. -/
theorem callThenRetResumesAfterTheCall : Obligations.CallThenRetResumesAfterTheCall := by
  unfold Obligations.CallThenRetResumesAfterTheCall
  intro nnn k s hsp
  obtain ⟨t, hcall, -⟩ := execCall_frame nnn s
  exact ⟨t, _, hcall, execRet_of_execCall hsp hcall k, rfl, rfl, unchanged_stack s _,
    fun j hj => Vector.getElem_set_ne hsp j.isLt hj.symm⟩

/-! ### The skips that compare -/

/-- A skip on a test of `P`: PC two further exactly when `P` holds (41_control_flow R125). -/
theorem skipOutcome_skipIf (s : State) {c : Bool} {P : Prop} (h : c = true ↔ P) : SkipOutcome P s (s.skipIf c) := by
  refine ⟨unchanged_skipIf s c, fun hp => ?_, fun hp => ?_⟩
  · rw [State.skipIf_eq, State.setPC_pc, if_pos (h.2 hp)]
  · rw [State.skipIf_eq, State.setPC_pc, if_neg (mt h.1 hp)]

/-- Settles O20: both words are encodings, and both instructions are skips on a comparison with the byte. -/
theorem immediateSkipsCompareAndSkip : Obligations.ImmediateSkipsCompareAndSkip := by
  unfold Obligations.ImmediateSkipsCompareAndSkip
  intro x nn s
  exact ⟨decode_encode (i := .seImm x nn) rfl, decode_encode (i := .sneImm x nn) rfl,
    ⟨_, rfl, skipOutcome_skipIf s beq_iff_eq⟩, ⟨_, rfl, skipOutcome_skipIf s bne_iff_ne⟩⟩

/-- Settles O21: both words are encodings for every low nibble, and both instructions are skips on a comparison of the two
registers. -/
theorem registerSkipsCompareAndSkip : Obligations.RegisterSkipsCompareAndSkip := by
  unfold Obligations.RegisterSkipsCompareAndSkip
  intro x y n s
  exact ⟨decode_encode (i := .seReg x y n) rfl, decode_encode (i := .sneReg x y n) rfl,
    ⟨_, rfl, skipOutcome_skipIf s beq_iff_eq⟩, ⟨_, rfl, skipOutcome_skipIf s bne_iff_ne⟩⟩

/-! ### JP, JP V0 and SYS -/

/-- Settles O15: JP writes PC alone. -/
theorem jpSetsPCToTheAddress : Obligations.JpSetsPCToTheAddress := by
  unfold Obligations.JpSetsPCToTheAddress
  exact fun nnn s => ⟨decode_encode (i := .jp nnn) rfl, _, rfl, unchanged_setPC s _, zextAddr_toNat nnn⟩

/-- Settles O22: JP V0 writes PC alone, and its sum fits a word. -/
theorem jpV0AddsV0AndTheAddress : Obligations.JpV0AddsV0AndTheAddress := by
  unfold Obligations.JpV0AddsV0AndTheAddress
  exact fun nnn s => ⟨decode_encode (i := .jpV0 nnn) rfl, _, rfl, unchanged_setPC s _,
    zextByte_add_zextAddr_toNat _ nnn⟩

/-- SYS under `SYS_REPORTS` only reports (60_exceptions R233). -/
theorem execSys_of_reports (nnn : Addr) {s : State} (h : s.params.sysReports = true) :
    execSys nnn s = .next (s.raise .unknownInstruction (encode (.sys nnn))) := by
  rw [execSys, if_pos h]

/-- SYS without `SYS_REPORTS` does nothing (41_control_flow R122). -/
theorem execSys_of_not_reports (nnn : Addr) {s : State} (h : s.params.sysReports = false) :
    execSys nnn s = .next s := by
  rw [execSys, if_neg (Bool.eq_false_iff.1 h)]

/-- Settles O19, by the value of `SYS_REPORTS`. -/
theorem sysChangesNothingButMayReport : Obligations.SysChangesNothingButMayReport := by
  unfold Obligations.SysChangesNothingButMayReport
  intro nnn s
  cases h : s.params.sysReports
  case true => exact ⟨_, execSys_of_reports nnn h, unchanged_raise s _ _, fun _ => rfl, nofun⟩
  case false => exact ⟨_, execSys_of_not_reports nnn h, unchanged_refl _ s, nofun, fun _ => rfl⟩

end Sys2Proof.Machine
end

section
/-! PROOFS. Register loads, ALU and random: the two shared writes of a result with its flag, the flags and results in
numbers, and the instructions as uses of them. -/

namespace Sys2Proof.Machine

/-! ### The two shared writes -/

@[simp] theorem State.getV_setV_self (s : State) (x : Nib) (b : Byte) : (s.setV x b).getV x = b := by
  rw [State.getV_setV, if_pos rfl]

/-- The writes of OR, AND and XOR, read register by register (42_alu R144). -/
theorem logicOutcome_writeLogic (s : State) (x : Nib) (b : Byte) : LogicOutcome x b s (s.writeLogic x b) := by
  refine ⟨unchanged_writeLogic s x b, fun r hr => ?_, fun hp => ⟨?_, fun r hr => ?_⟩, fun hp => ⟨?_, fun hx => ?_⟩⟩
  · obtain ⟨hrx, hrf⟩ : r ≠ x ∧ r ≠ regVF := by simpa using hr
    simp [State.getV_writeLogic, hrx, hrf]
  · simp [State.getV_writeLogic, hp]
  · have hrx : r ≠ x := by simpa using hr
    simp [State.getV_writeLogic, hp, hrx]
  · simp [State.getV_writeLogic, hp]
  · simp [State.getV_writeLogic, hx]

/-- A flag's byte is its number. -/
theorem flagByte_toNat (f : Bool) : (flagByte f).toNat = f.toNat := by
  cases f <;> rfl

/-- `WriteFlagged` of a flag and a byte whose numbers are `n` and `m`: apart from VF the two writes do not meet, and in VF
the last one remains (42_alu R148). -/
theorem flaggedOutcome_writeFlagged (s : State) (x : Nib) {f : Bool} {b : Byte} {n m : Nat} (hn : f.toNat = n)
    (hm : b.toNat = m) : FlaggedOutcome x n m s (s.writeFlagged x f b) := by
  subst hn hm
  by_cases hx : x = regVF
  · subst hx
    refine ⟨unchanged_writeFlagged s _ f b, fun r hr => ?_, fun h => absurd rfl h, fun _ ho => ?_, fun _ ho => ?_⟩
    · have hrf : r ≠ regVF := by simpa using hr
      rw [State.getV_writeFlagged_vf, if_neg hrf]
    · simp [State.getV_writeFlagged_vf, ho]
    · simp [State.getV_writeFlagged_vf, ho, flagByte_toNat]
  · refine ⟨unchanged_writeFlagged s x f b, fun r hr => ?_, fun _ => ⟨?_, ?_⟩, fun h => absurd h hx, fun h => absurd h hx⟩
    · obtain ⟨hrx, hrf⟩ : r ≠ x ∧ r ≠ regVF := by simpa using hr
      rw [State.getV_writeFlagged s x r f b hx, if_neg hrx, if_neg hrf]
    · rw [State.getV_writeFlagged s x x f b hx, if_pos rfl]
    · rw [State.getV_writeFlagged s x regVF f b hx, if_neg (Ne.symm hx), if_pos rfl, flagByte_toNat]

/-! ### Flags and results in numbers -/

theorem addCarry_toNat (a b : Byte) : (addCarry a b).toNat = if a.toNat + b.toNat > 255 then 1 else 0 :=
  Bool.cond_decide _ 1 0

theorem subFlag_toNat (a b : Byte) : (subFlag a b).toNat = if a.toNat > b.toNat then 1 else 0 :=
  Bool.cond_decide _ 1 0

/-- Bit 0 is the remainder of the half (42_alu R153). -/
theorem shrFlag_toNat (b : Byte) : (shrFlag b).toNat = b.toNat % 2 :=
  (Nat.toNat_testBit b.toNat 0).trans (by simp)

/-- Bit 7 is the carry of the double (42_alu R154). -/
theorem shlFlag_toNat (b : Byte) : (shlFlag b).toNat = b.toNat / 128 := by
  have hbit : (shlFlag b).toNat = b.toNat / 2 ^ 7 % 2 := Nat.toNat_testBit b.toNat 7
  omega

/-- The wrapped difference of two bytes. -/
theorem byte_sub_toNat (a b : Byte) : (a - b).toNat = (a.toNat + 256 - b.toNat) % 256 := by
  rw [BitVec.toNat_sub]; omega

theorem byte_ushiftRight_one_toNat (b : Byte) : (b >>> 1).toNat = b.toNat / 2 := by
  rw [BitVec.toNat_ushiftRight, Nat.shiftRight_one]

theorem byte_shiftLeft_one_toNat (b : Byte) : (b <<< 1).toNat = 2 * b.toNat % 256 := by
  rw [BitVec.toNat_shiftLeft, Nat.shiftLeft_eq, Nat.mul_comm]

/-- The byte that `SHIFT_SOURCE` names (42_alu R152). -/
theorem State.shiftOperand_eq {s : State} {x y : Nib} {b : Byte} (hx : s.params.shiftSource = .vx → b = s.getV x)
    (hy : s.params.shiftSource = .vy → b = s.getV y) : s.shiftOperand x y = b := by
  unfold State.shiftOperand
  split
  case h_1 h => exact (hx h).symm
  case h_2 h => exact (hy h).symm

/-! ### The operations on two registers -/

/-- Settles O26: the three operations differ only in the byte they write. -/
theorem logicOperationsWriteResultAndVFByParameter : Obligations.LogicOperationsWriteResultAndVFByParameter := by
  unfold Obligations.LogicOperationsWriteResultAndVFByParameter
  exact fun x y s => ⟨⟨_, rfl, logicOutcome_writeLogic s x _⟩, ⟨_, rfl, logicOutcome_writeLogic s x _⟩,
    ⟨_, rfl, logicOutcome_writeLogic s x _⟩⟩

/-- Settles O27: the flag is the carry and the byte is the sum. -/
theorem addRegGivesSumAndCarry : Obligations.AddRegGivesSumAndCarry := by
  unfold Obligations.AddRegGivesSumAndCarry
  exact fun x y s => ⟨_, rfl, flaggedOutcome_writeFlagged s x (addCarry_toNat _ _) (BitVec.toNat_add _ _)⟩

/-- Settles O28: SUBN is SUB with its operands swapped. -/
theorem subtractionsGiveDifferenceAndStrictFlag : Obligations.SubtractionsGiveDifferenceAndStrictFlag := by
  unfold Obligations.SubtractionsGiveDifferenceAndStrictFlag
  exact fun x y s => ⟨⟨_, rfl, flaggedOutcome_writeFlagged s x (subFlag_toNat _ _) (byte_sub_toNat _ _)⟩,
    ⟨_, rfl, flaggedOutcome_writeFlagged s x (subFlag_toNat _ _) (byte_sub_toNat _ _)⟩⟩

/-- Settles O29: the byte of the statement is the shifts' operand, whatever its source. -/
theorem shiftsGiveTheBitShiftedOut : Obligations.ShiftsGiveTheBitShiftedOut := by
  unfold Obligations.ShiftsGiveTheBitShiftedOut
  intro x y s b hx hy
  obtain rfl : s.shiftOperand x y = b := State.shiftOperand_eq hx hy
  exact ⟨⟨_, rfl, flaggedOutcome_writeFlagged s x (shrFlag_toNat _) (byte_ushiftRight_one_toNat _)⟩,
    ⟨_, rfl, flaggedOutcome_writeFlagged s x (shlFlag_toNat _) (byte_shiftLeft_one_toNat _)⟩⟩

/-! ### The writes of one register without a flag -/

/-- Settles O23: the word is an encoding, and the instruction writes the one register. -/
theorem ldImmLoadsTheByte : Obligations.LdImmLoadsTheByte := by
  unfold Obligations.LdImmLoadsTheByte
  exact fun x nn s => ⟨decode_encode (i := .ldImm x nn) rfl, _, rfl, unchanged_setV s x _, regsSame_setV s x _,
    s.getV_setV_self x nn⟩

/-- Settles O24: the sum of bytes wraps. -/
theorem addImmWrapsWithoutFlag : Obligations.AddImmWrapsWithoutFlag := by
  unfold Obligations.AddImmWrapsWithoutFlag
  intro x nn s
  refine ⟨_, rfl, unchanged_setV s x _, regsSame_setV s x _, ?_⟩
  rw [State.getV_setV_self, BitVec.toNat_add]

/-- Settles O25: the one write does not depend on a parameter. -/
theorem ldRegCopiesWithoutFlag : Obligations.LdRegCopiesWithoutFlag := by
  unfold Obligations.LdRegCopiesWithoutFlag
  exact fun x y s => ⟨_, rfl, unchanged_setV s x _, regsSame_setV s x _, s.getV_setV_self x _⟩

/-- Settles O30: a bit of the result is a bit of the draw and of the byte. -/
theorem rndIsTheDrawMaskedByTheByte : Obligations.RndIsTheDrawMaskedByTheByte := by
  unfold Obligations.RndIsTheDrawMaskedByTheByte
  intro x nn s
  refine ⟨_, rfl, unchanged_setV s x _, regsSame_setV s x _, s.getV_setV_self x _, fun k hk => ?_⟩
  rw [State.getV_setV_self, BitVec.getLsbD_and, hk, Bool.and_false]

end Sys2Proof.Machine
end

section
/-! PROOFS. The display: what a canvas drawn over a set of cells is, once for a bit, a row and a sprite, and CLS and DRW
as uses of it. -/

namespace Sys2Proof.Machine

/-! ### Drawing over a set of cells -/

/-- `b` is the canvas `a` with every cell of `cov` XORed with 1, and its flag also tells whether one of them was on before
(43_display R172, R174). -/
structure DrawnOver (cov : Fin 32 → Fin 64 → Bool) (a b : Canvas) : Prop where
  cell : ∀ y x, b.1.cell y x = (a.1.cell y x ^^ cov y x)
  collision : b.2 = true ↔ a.2 = true ∨ ∃ y x, a.1.cell y x = true ∧ cov y x = true

/-- A canvas is itself drawn over no cell. -/
theorem drawnOver_none {cov : Fin 32 → Fin 64 → Bool} (h : ∀ y x, cov y x = false) (cv : Canvas) :
    DrawnOver cov cv cv :=
  ⟨by simp [h], by simp [h]⟩

/-- Two drawings over disjoint sets of cells are one over both: the second meets its cells as the first found them. -/
theorem DrawnOver.trans {c d : Fin 32 → Fin 64 → Bool} {cv cv' cv'' : Canvas} (hc : DrawnOver c cv cv')
    (hd : DrawnOver d cv' cv'') (hdisj : ∀ y x, d y x = true → c y x = false) :
    DrawnOver (fun y x => c y x || d y x) cv cv'' where
  cell y x := by
    rw [hd.cell, hc.cell]
    cases h : d y x
    case false => simp
    case true => simp [hdisj y x h]
  collision := by
    have hbefore (y x) : (cv'.1.cell y x = true ∧ d y x = true) ↔ (cv.1.cell y x = true ∧ d y x = true) :=
      and_congr_left fun h => by rw [hc.cell, hdisj y x h, Bool.xor_false]
    simp only [hd.collision, hc.collision, hbefore, Bool.or_eq_true, and_or_left, exists_or, or_assoc]

/-- Drawings one after another, over sets of cells of which no two meet, are one over their union. -/
theorem drawnOver_foldl_range {f : Canvas → Nat → Canvas} {cov : Nat → Fin 32 → Fin 64 → Bool} {n : Nat}
    (hstep : ∀ k cv, DrawnOver (cov k) cv (f cv k))
    (hdisj : ∀ j k, j < k → k < n → ∀ y x, cov k y x = true → cov j y x = false) (cv : Canvas) :
    DrawnOver (fun y x => (List.range n).any (cov · y x)) cv ((List.range n).foldl f cv) := by
  induction n with
  | zero => exact drawnOver_none (fun _ _ => rfl) cv
  | succ n ih =>
    have hfirst := ih fun j k hj hk => hdisj j k hj (by omega)
    have hmeet (y x) (h : cov n y x = true) : (List.range n).any (cov · y x) = false := by
      simpa using fun j hj => hdisj j n hj (by omega) y x h
    simpa [List.range_succ] using hfirst.trans (hstep n _) hmeet

/-! ### A bit, a row and a sprite -/

/-- A sprite bit is drawn over its one cell, or over none when it is 0 or its column is past 63 (43_display R172, R173). -/
theorem drawnOver_drawBit (cv : Canvas) (yy : Fin 32) (xx : Nat) (bit : Bool) :
    DrawnOver (fun y x => decide (yy = y ∧ x.val = xx) && bit) cv (drawBit cv yy xx bit) := by
  by_cases hxx : xx < 64
  case neg =>
    rw [drawBit_of_ge cv yy xx bit (by omega)]
    exact drawnOver_none (fun y x => by simp; omega) cv
  case pos =>
    rw [drawBit_of_lt cv yy xx bit hxx]
    cases bit
    case false => exact drawnOver_none (by simp) cv
    case true =>
      have hcell (y : Fin 32) (x : Fin 64) : (yy = y ∧ x.val = xx) ↔ (y = yy ∧ x = ⟨xx, hxx⟩) := by
        rw [Fin.ext_iff (a := x), eq_comm]
      simp only [hcell]
      refine ⟨fun y x => ?_, by simp⟩
      by_cases h : y = yy ∧ x = ⟨xx, hxx⟩
      · obtain ⟨rfl, rfl⟩ := h
        simp [Framebuffer.cell_flip]
      · simp [Framebuffer.cell_flip, h]

/-- The cells under the 1 bits of a sprite row drawn in row `yy` from column `x0` (43_display R172, R173). -/
def rowCovers (yy : Fin 32) (x0 : Nat) (row : Byte) (y : Fin 32) (x : Fin 64) : Bool :=
  decide (yy = y ∧ x0 ≤ x.val ∧ x.val < x0 + 8) && row.getLsbD (7 - (x.val - x0))

/-- The cells of a row are those of its eight bits. -/
theorem any_bit_eq_rowCovers (yy : Fin 32) (x0 : Nat) (row : Byte) (y : Fin 32) (x : Fin 64) :
    ((List.range 8).any fun c => decide (yy = y ∧ x.val = x0 + c) && row.getLsbD (7 - c)) = rowCovers yy x0 row y x := by
  rw [Bool.eq_iff_iff]
  simp only [rowCovers, List.any_eq_true, List.mem_range, Bool.and_eq_true, decide_eq_true_eq]
  constructor
  · rintro ⟨c, hc, ⟨hy, hx⟩, hbit⟩
    have hcol : x.val - x0 = c := by omega
    exact ⟨⟨hy, by omega, by omega⟩, by rwa [hcol]⟩
  · rintro ⟨⟨hy, hge, hlt⟩, hbit⟩
    exact ⟨x.val - x0, by omega, ⟨hy, by omega⟩, hbit⟩

/-- A sprite row is drawn bit by bit, each over a column of its own. -/
theorem drawnOver_drawRow (cv : Canvas) (yy : Fin 32) (x0 : Nat) (row : Byte) :
    DrawnOver (rowCovers yy x0 row) cv (drawRow cv yy x0 row) := by
  have hbits := drawnOver_foldl_range (n := 8) (fun c cv => drawnOver_drawBit cv yy (x0 + c) (row.getLsbD (7 - c)))
    (fun j k hjk _ y x h => by simp at h ⊢; omega) cv
  simp only [any_bit_eq_rowCovers] at hbits
  exact hbits

/-- What a sprite covers is what its rows cover, each on its wrapped screen row. -/
theorem State.covers_eq_any_rowCovers (s : State) (x0 y0 n : Nat) (y : Fin 32) (x : Fin 64) :
    s.covers x0 y0 n y x =
      (List.range n).any fun r => rowCovers (wrapRow y0 r) x0 (s.readByte (s.indexAddr r)) y x := by
  simp only [State.covers, rowCovers, wrapRow, Fin.ext_iff, State.indexAddr]

/-- A sprite of at most 32 rows is drawn row by row, each on a screen row of its own (43_display R172, R173). -/
theorem State.drawnOver_drawSprite (s : State) (y0 x0 : Nat) {n : Nat} (hn : n ≤ 32) :
    DrawnOver (s.covers x0 y0 n) (s.fb, false) (s.drawSprite y0 x0 n) := by
  have hrows := drawnOver_foldl_range (n := n)
    (fun r cv => drawnOver_drawRow cv (wrapRow y0 r) x0 (s.readByte (s.indexAddr r)))
    (fun j k hjk hk y x h => by simp [rowCovers, wrapRow, Fin.ext_iff] at h ⊢; omega) (s.fb, false)
  simp only [← State.covers_eq_any_rowCovers] at hrows
  exact hrows

/-! ### CLS and DRW -/

/-- Settles O31: the word is an encoding for every nibble, and CLS writes the framebuffer alone. -/
theorem clsTurnsEveryCellOff : Obligations.ClsTurnsEveryCellOff := by
  unfold Obligations.ClsTurnsEveryCellOff
  exact fun k s => ⟨decode_encode (i := .cls k) rfl, _, rfl, unchanged_setFB s _, Framebuffer.cell_blank⟩

theorem flagByte_eq_one_iff (f : Bool) : flagByte f = 1#8 ↔ f = true := by
  cases f <;> decide

theorem flagByte_eq_one_or_zero (f : Bool) : flagByte f = 1#8 ∨ flagByte f = 0#8 := by
  cases f <;> decide

/-- Settles O32: the canvas that DRW writes back is the framebuffer drawn over what the sprite covers. -/
theorem drwXorsTheSpriteAndReportsCollision : Obligations.DrwXorsTheSpriteAndReportsCollision := by
  unfold Obligations.DrwXorsTheSpriteAndReportsCollision
  intro x y n s
  have hdraw := s.drawnOver_drawSprite (s.spriteRow y) (s.spriteCol x) (n := n.toNat) (by omega)
  refine ⟨_, rfl, ((unchanged_setFB s _).trans (unchanged_setV _ _ _)).mono (by simp), regsSame_setV (s.setFB _) regVF _,
    hdraw.cell, ?_, ?_⟩
  · rw [State.getV_setV_self]
    exact flagByte_eq_one_or_zero _
  · rw [State.getV_setV_self, flagByte_eq_one_iff, hdraw.collision]
    simp [State.spriteRow, State.spriteCol]

/-- What a sprite covers depends on I and memory alone. -/
theorem State.covers_congr {s t : State} (hi : t.i = s.i) (hmem : ∀ a, t.readByte a = s.readByte a) (x0 y0 n : Nat) :
    t.covers x0 y0 n = s.covers x0 y0 n := by
  funext y x
  simp only [State.covers, hi, hmem]

/-- Settles O33: the first draw leaves the sprite and its place as they were, so the second XORs the same cells again, and
collides where the first found a covered cell off. -/
theorem drawingTwiceRestoresTheFramebuffer : Obligations.DrawingTwiceRestoresTheFramebuffer := by
  unfold Obligations.DrawingTwiceRestoresTheFramebuffer
  intro x y n s hx hy
  obtain ⟨t, ht, hframe, hregs, hcell, -, -⟩ := drwXorsTheSpriteAndReportsCollision x y n s
  obtain ⟨u, hu, -, -, hcell', -, hflag⟩ := drwXorsTheSpriteAndReportsCollision x y n t
  have hcovers := State.covers_congr (hframe .i (by decide)) (hframe .mem (by decide))
  have hvx : t.getV x = s.getV x := hregs x (by simpa using hx)
  have hvy : t.getV y = s.getV y := hregs y (by simpa using hy)
  rw [hvx, hvy, hcovers] at hcell' hflag
  refine ⟨t, u, ht, hu, fun yy xx => ?_, ?_⟩
  · rw [hcell', hcell, Bool.xor_assoc, Bool.xor_self, Bool.xor_false]
  · have hbefore (c k : Bool) : ((c ^^ k) = true ∧ k = true) ↔ (c = false ∧ k = true) := by
      cases c <;> cases k <;> decide
    simp only [hflag, hcell, hbefore]

end Sys2Proof.Machine
end

section
/-! PROOFS. The index register and memory transfer: the three writes of I, the digits of LD B, and the dump and load of
registers with I after them. -/

namespace Sys2Proof.Machine

/-! ### The writes of I -/

/-- Five times a byte fits a word (44_index_memory R193). -/
theorem five_mul_zextByte_toNat (b : Byte) : (5#16 * zextByte b).toNat = 5 * b.toNat := by
  rw [BitVec.toNat_mul, zextByte_toNat]
  exact Nat.mod_eq_of_lt (by simp only [BitVec.toNat_ofNat]; omega)

/-- Settles O34: the word is an encoding, and LD I writes I alone. -/
theorem ldISetsTheIndex : Obligations.LdISetsTheIndex := by
  unfold Obligations.LdISetsTheIndex
  exact fun nnn s => ⟨decode_encode (i := .ldI nnn) rfl, _, rfl, unchanged_setI s _, zextAddr_toNat nnn⟩

/-- Settles O35: ADD I writes I alone, and the sum of words wraps. -/
theorem addIWrapsAtSixteenBitsWithoutFlag : Obligations.AddIWrapsAtSixteenBitsWithoutFlag := by
  unfold Obligations.AddIWrapsAtSixteenBitsWithoutFlag
  intro x s
  refine ⟨_, rfl, unchanged_setI s _, ?_⟩
  rw [State.setI_i, BitVec.toNat_add, zextByte_toNat]

/-- Settles O36: LD F writes I alone, and its product does not wrap. -/
theorem ldFSetsFiveTimesTheByte : Obligations.LdFSetsFiveTimesTheByte := by
  unfold Obligations.LdFSetsFiveTimesTheByte
  exact fun x s => ⟨decode_encode (i := .ldF x) rfl, _, rfl, unchanged_setI s _, five_mul_zextByte_toNat _⟩

/-! ### LD B -/

theorem bcdHundreds_toNat (b : Byte) : (bcdHundreds b).toNat = b.toNat / 100 :=
  BitVec.toNat_udiv

theorem bcdTens_toNat (b : Byte) : (bcdTens b).toNat = b.toNat / 10 % 10 := by
  rw [bcdTens, BitVec.toNat_umod, BitVec.toNat_udiv]; rfl

theorem bcdOnes_toNat (b : Byte) : (bcdOnes b).toNat = b.toNat % 10 :=
  BitVec.toNat_umod

/-- A write inside a list of masked addresses leaves the bytes outside it. -/
theorem BytesSame.writeByte {but : List Nat} {s t : State} (h : BytesSame but s t) {a : Nat} (ha : maskAddr a ∈ but)
    (b : Byte) : BytesSame but s (t.writeByte a b) := by
  intro c hc
  have hne : maskAddr c ≠ maskAddr a := fun heq => hc (heq ▸ ha)
  rw [State.readByte_writeByte, if_neg hne, h c hc]

/-- The byte at `I + k` lies in a window of more than `k` bytes. -/
theorem State.maskAddr_indexAddr_mem_window (s : State) {k n : Nat} (h : k < n) :
    maskAddr (s.indexAddr k) ∈ s.window n :=
  List.mem_map_of_mem (List.mem_range.2 h)

/-- The bytes at I are distinct as long as they do not go round memory (20_memory R52). -/
theorem maskAddr_add_inj (a : Nat) {j k : Nat} (hj : j < 4096) (hk : k < 4096) :
    maskAddr (a + j) = maskAddr (a + k) ↔ j = k := by
  rw [maskAddr_eq_mod, maskAddr_eq_mod]; omega

/-- The byte at `I + k` after a write at `I + j`. -/
theorem State.readByte_add_writeByte_indexAddr (s t : State) {j k : Nat} (hj : j < 4096) (hk : k < 4096) (b : Byte) :
    (t.writeByte (s.indexAddr j) b).readByte (s.i.toNat + k) = if k = j then b else t.readByte (s.i.toNat + k) := by
  rw [State.readByte_writeByte, State.indexAddr]
  exact if_congr (maskAddr_add_inj _ hk hj) rfl rfl

/-- Settles O37: three writes inside the window, each read back past the writes after it. -/
theorem ldBStoresTheDecimalDigits : Obligations.LdBStoresTheDecimalDigits := by
  unfold Obligations.LdBStoresTheDecimalDigits
  intro x s
  have hsame : BytesSame (s.window 3) s s := fun _ _ => rfl
  refine ⟨decode_encode (i := .ldB x) rfl, _, rfl, unchanged_mem s _,
    ((hsame.writeByte (s.maskAddr_indexAddr_mem_window (by decide)) _).writeByte
      (s.maskAddr_indexAddr_mem_window (by decide)) _).writeByte (s.maskAddr_indexAddr_mem_window (by decide)) _,
    ?_, ?_, ?_⟩
  · simp (disch := decide) only [State.readByte_add_writeByte_indexAddr, if_neg, if_true, bcdHundreds_toNat]
  · simp (disch := decide) only [State.readByte_add_writeByte_indexAddr, if_neg, if_true, bcdTens_toNat]
  · simp (disch := decide) only [State.readByte_add_writeByte_indexAddr, if_neg, if_true, bcdOnes_toNat]

/-! ### I after a dump or a load -/

@[simp] theorem State.getV_bumpI (s : State) (x r : Nib) : (s.bumpI x).getV r = s.getV r :=
  unchanged_bumpI s x .v (by decide) r

@[simp] theorem State.readByte_bumpI (s : State) (x : Nib) (a : Nat) : (s.bumpI x).readByte a = s.readByte a :=
  unchanged_bumpI s x .mem (by decide) a

/-- After an operation that keeps I and the parameters, `MEM_I_INCREMENT` moves I as from before it
(44_index_memory R197). -/
theorem incrementOutcome_bumpI {s t : State} {but : List Part} (h : Unchanged but s t) (hi : Part.i ∉ but)
    (hp : Part.params ∉ but) (x : Nib) : IncrementOutcome x s (t.bumpI x) := by
  have hti : t.i = s.i := h .i hi
  have htp : t.params = s.params := h .params hp
  rw [State.bumpI_eq, hti, htp]
  refine ⟨fun hnone => ?_, fun hinc => ?_⟩
  · simp [hnone]
  · simp [hinc, BitVec.toNat_add, BitVec.toNat_setWidth]

/-! ### Dump and load -/

/-- Settles O38: the stores of a dump, and I after them. -/
theorem dumpStoresRegistersUpToX : Obligations.DumpStoresRegistersUpToX := by
  unfold Obligations.DumpStoresRegistersUpToX
  intro x s
  obtain ⟨houtside, hstored⟩ := s.storeRegs_bytes (x.toNat + 1) x.isLt
  have hframe := unchanged_storeRegs s (x.toNat + 1)
  refine ⟨_, rfl, hframe.trans (unchanged_bumpI _ x), fun a ha => ?_,
    incrementOutcome_bumpI hframe (by decide) (by decide) x, fun r hr => ?_⟩
  · rw [State.readByte_bumpI, houtside a ha]
  · rw [State.readByte_bumpI, hstored r (Nat.lt_succ_of_le hr)]

/-- Settles O39: the loads of a load, and I after them. -/
theorem loadReadsRegistersUpToX : Obligations.LoadReadsRegistersUpToX := by
  unfold Obligations.LoadReadsRegistersUpToX
  intro x s
  have hframe := unchanged_loadRegs s (x.toNat + 1)
  refine ⟨_, rfl, hframe.trans (unchanged_bumpI _ x), incrementOutcome_bumpI hframe (by decide) (by decide) x,
    fun r => ⟨fun hr => ?_, fun hr => ?_⟩⟩
  · rw [State.getV_bumpI, s.getV_loadRegs _ x.isLt, if_pos (Nat.lt_succ_of_le hr)]
  · rw [State.getV_bumpI, s.getV_loadRegs _ x.isLt, if_neg (by omega)]

/-- Settles O40: the load reads each register's byte where the dump stored it, whatever the registers and I hold in
between. -/
theorem dumpThenLoadRestoresTheRegisters : Obligations.DumpThenLoadRestoresTheRegisters := by
  unfold Obligations.DumpThenLoadRestoresTheRegisters
  intro x s v
  obtain ⟨t, ht, -, -, -, hstored⟩ := dumpStoresRegistersUpToX x s
  obtain ⟨u, hu, -, -, hloaded⟩ := loadReadsRegistersUpToX x { t with v := v, i := s.i }
  refine ⟨t, u, ht, hu, fun r hr => ?_⟩
  calc u.getV r = t.readByte (s.i.toNat + r.toNat) := (hloaded r).1 hr
    _ = s.getV r := hstored r hr

end Sys2Proof.Machine
end

section
/-! PROOFS. Timers and keys: the three timer loads with the tick of the same step, the sound port after it, the skips on a
key and the wait for one. -/

namespace Sys2Proof.Machine

/-! ### The timer loads -/

/-- Settles O41: the word is an encoding, the register is written before the tick, and the tick leaves it. -/
theorem ldVxDTReadsTheTimerBeforeTheTick : Obligations.LdVxDTReadsTheTimerBeforeTheTick := by
  unfold Obligations.LdVxDTReadsTheTimerBeforeTheTick
  refine ⟨fun x s => ?_, fun x s hd => ?_⟩
  · exact ⟨decode_encode (i := .ldVxDT x) rfl, _, rfl, unchanged_setV s x _, regsSame_setV s x _, s.getV_setV_self x _⟩
  · exact ⟨_, step_of_exec hd rfl, State.getV_setV_self _ x _, tickTimer_toNat _⟩

/-- The sound port is on while ST is nonzero (10_state R44). -/
theorem State.sound_iff (s : State) : s.sound = true ↔ 1 ≤ s.st.toNat := by
  rw [State.sound, bne_iff_ne, Nat.one_le_iff_ne_zero, ne_eq, ne_eq, ← BitVec.toNat_inj]
  rfl

/-- After a tick the sound is on exactly when ST was at least 2 before it (40_cycle R106, 10_state R44). -/
theorem State.sound_endCycle_iff (s : State) : s.endCycle.sound = true ↔ 2 ≤ s.st.toNat := by
  rw [State.sound_iff, State.endCycle_st, tickTimer_toNat, ticked]
  omega

/-- Settles O42: each instruction writes its one timer, and the end of the cycle ticks both. -/
theorem timerWritesAreTickedInTheSameStep : Obligations.TimerWritesAreTickedInTheSameStep := by
  unfold Obligations.TimerWritesAreTickedInTheSameStep
  refine ⟨fun x s => ?_, fun x s hd => ?_, fun x s hd => ?_⟩
  · exact ⟨⟨_, rfl, unchanged_setDT s _, rfl⟩, ⟨_, rfl, unchanged_setST s _, rfl⟩⟩
  · exact ⟨_, step_of_exec hd rfl, tickTimer_toNat _, tickTimer_toNat _⟩
  · exact ⟨_, step_of_exec hd rfl, tickTimer_toNat _, tickTimer_toNat _, State.sound_endCycle_iff _⟩

/-! ### The keys -/

/-- The key that EX9E and EXA1 test, by its number (45_timers_keys R211). -/
theorem State.keyDown_keyIndex (s : State) (x : Nib) :
    s.keyDown (s.keyIndex x) = s.keys.getLsbD ((s.getV x).toNat % 16) := by
  rw [State.keyIndex_eq_mod, State.keyDown]

/-- Settles O43: both are skips on the level of the key that V[x] names. -/
theorem keySkipsTestTheKeyLevel : Obligations.KeySkipsTestTheKeyLevel := by
  unfold Obligations.KeySkipsTestTheKeyLevel
  intro x s
  rw [← s.keyDown_keyIndex x]
  exact ⟨⟨_, rfl, skipOutcome_skipIf s Iff.rfl⟩, ⟨_, rfl, skipOutcome_skipIf s (Bool.not_eq_true' _).to_iff⟩⟩

/-- Settles O44, by whether the search finds a key: what it finds is the lowest key down, and it finds nothing only when
no key is down. -/
theorem keyWaitRecordsTheLowestKeyOrRewinds : Obligations.KeyWaitRecordsTheLowestKeyOrRewinds := by
  unfold Obligations.KeyWaitRecordsTheLowestKeyOrRewinds
  intro x s
  cases hkey : s.lowestKey with
  | some j =>
    obtain ⟨hj, hdown, -⟩ := State.lowestKey_some hkey
    refine ⟨_, execLdVxK_of_some hkey x, fun k hk hkdown hlow => ?_, fun hnone => ?_⟩
    · obtain rfl : k = j := Option.some.inj ((State.lowestKey_eq_some hk hkdown hlow).symm.trans hkey)
      refine ⟨unchanged_setV s x _, regsSame_setV s x _, ?_⟩
      rw [State.getV_setV_self]
      exact Nat.mod_eq_of_lt (by omega)
    · exact absurd hdown (Bool.eq_false_iff.1 (hnone j hj))
  | none =>
    refine ⟨_, execLdVxK_of_none hkey x, fun k hk hkdown _ => ?_, fun _ => ⟨unchanged_setPC s _, rfl⟩⟩
    exact absurd hkdown (Bool.eq_false_iff.1 (State.lowestKey_none hkey k hk))

end Sys2Proof.Machine
end

section
/-! PROOFS. The diagnostic events: on which condition an instruction raises one, and the event that its step then shows. -/

namespace Sys2Proof.Machine

/-! ### The event of an instruction -/

/-- The condition on which an instruction raises an event of a kind (60_exceptions R233, R236, R237). -/
def Reports (i : Instr) (s : State) : EventKind → Prop
  | .unknownInstruction => s.params.sysReports = true ∧ ∃ nnn, i = .sys nnn
  | .stackOverflow => s.sp.val = 16 ∧ ∃ nnn, i = .call nnn
  | .stackUnderflow => s.sp.val = 0 ∧ ∃ k, i = .ret k

/-- The events are as before, or the instruction does nothing but raise one, on the condition of its kind. -/
def SilentOrReports (i : Instr) (s t : State) : Prop :=
  t.events = s.events ∨ ∃ k, Reports i s k ∧ t = s.raise k (encode i)

theorem execSys_silentOrReports {nnn : Addr} {s t : State} (h : execSys nnn s = .next t) :
    SilentOrReports (.sys nnn) s t := by
  cases hrep : s.params.sysReports
  case true =>
    rw [execSys_of_reports nnn hrep] at h
    exact .inr ⟨.unknownInstruction, ⟨hrep, nnn, rfl⟩, (Host.Outcome.next.inj h).symm⟩
  case false =>
    rw [execSys_of_not_reports nnn hrep] at h
    obtain rfl := Host.Outcome.next.inj h
    exact .inl rfl

theorem execCall_silentOrReports {nnn : Addr} {s t : State} (h : execCall nnn s = .next t) :
    SilentOrReports (.call nnn) s t := by
  by_cases hsp : s.sp.val < 16
  · rw [execCall_of_lt nnn s hsp] at h
    obtain rfl := Host.Outcome.next.inj h
    exact .inl rfl
  · have hfull : s.sp.val = 16 := by omega
    rw [execCall_of_full nnn s hfull] at h
    exact .inr ⟨.stackOverflow, ⟨hfull, nnn, rfl⟩, (Host.Outcome.next.inj h).symm⟩

theorem execRet_silentOrReports {ign : Nib} {s t : State} (h : execRet ign s = .next t) :
    SilentOrReports (.ret ign) s t := by
  by_cases hsp : s.sp.val = 0
  · rw [execRet_of_zero ign s hsp] at h
    exact .inr ⟨.stackUnderflow, ⟨hsp, ign, rfl⟩, (Host.Outcome.next.inj h).symm⟩
  · rw [execRet_of_ne_zero ign s hsp] at h
    obtain rfl := Host.Outcome.next.inj h
    exact .inl rfl

/-- Every instruction but SYS, CALL and RET has the events in its frame. -/
theorem exec_silentOrReports {i : Instr} {s t : State} (h : exec i s = .next t) : SilentOrReports i s t := by
  by_cases hev : Part.events ∈ mayChange i
  · obtain ⟨nnn, rfl⟩ | ⟨nnn, rfl⟩ | ⟨ign, rfl⟩ := eq_sys_or_call_or_ret_of_events hev
    · exact execSys_silentOrReports h
    · exact execCall_silentOrReports h
    · exact execRet_silentOrReports h
  · obtain ⟨u, hu, hframe⟩ := exec_frame i s
    obtain rfl := Host.Outcome.next.inj (hu.symm.trans h)
    exact .inl (hframe .events hev)

/-! ### The event of a step -/

/-- An event raised in a cycle is its only one, and carries the address that the word was fetched from (60_exceptions R231). -/
theorem State.events_raise_beginCycle (s : State) (k : EventKind) (w : Word) :
    (s.beginCycle.raise k w).events = [⟨k, s.pc, w⟩] := by
  simp

/-- A word that does not decode is one that no row of the opcode map matches (30_encoding R76). -/
theorem firstRow_of_error {w : Word} {r : Reject} (hd : decode w = .error r) : firstRow w = none := by
  rw [← decodeByMap_eq_decode, decodeByMap] at hd
  split at hd
  next => cases hd
  next hnone => exact hnone

/-- Settles O49: an unknown word raises its own event, and one that decodes is silent or reports, with the word it
encodes to. -/
theorem everyStepRaisesAtMostOneEvent : Obligations.EveryStepRaisesAtMostOneEvent := by
  unfold Obligations.EveryStepRaisesAtMostOneEvent
  intro s t h
  cases hd : decode s.fetchWord with
  | error r =>
    obtain rfl := Host.Outcome.next.inj ((step_of_unknown hd).symm.trans h)
    exact .inr ⟨_, s.events_raise_beginCycle _ _, rfl, rfl, fun _ => .inl (firstRow_of_error hd), nofun, nofun⟩
  | ok i =>
    obtain ⟨u, hu, -⟩ := exec_frame i s.beginCycle
    obtain rfl := Host.Outcome.next.inj ((step_of_exec hd hu).symm.trans h)
    obtain hsilent | ⟨k, hk, rfl⟩ := exec_silentOrReports hu
    · exact .inl hsilent
    · refine .inr ⟨_, s.events_raise_beginCycle k _, rfl, (wordOf_of_decode hd).2, ?_⟩
      cases k with
      | unknownInstruction =>
        obtain ⟨hrep, nnn, rfl⟩ := hk
        exact ⟨fun _ => .inr ⟨hrep, nnn, rfl⟩, nofun, nofun⟩
      | stackOverflow =>
        obtain ⟨hsp, nnn, rfl⟩ := hk
        exact ⟨nofun, fun _ => ⟨hsp, nnn, rfl⟩, nofun⟩
      | stackUnderflow =>
        obtain ⟨hsp, ign, rfl⟩ := hk
        exact ⟨nofun, nofun, fun _ => ⟨hsp, ign, rfl⟩⟩

end Sys2Proof.Machine
end

section
/-! PROOFS. Reset and load: what each byte holds right after reset, the reset value of every component, the image that a
load places or rejects; and the step that waits for a key. -/

namespace Sys2Proof.Machine

/-! ### The state right after reset -/

/-- Right after reset every address reads as its initial contents (20_memory R56). -/
theorem State.readByte_resetWith (p : Params) (k : BitVec 16) (b : Byte) (n : Nat) {a : Nat} (h : a < 4096) :
    (State.resetWith p k b n).readByte a = Memory.initial p.font a := by
  have hmask : maskAddr a = a := (maskAddr_eq_mod a).trans (Nat.mod_eq_of_lt h)
  exact congrArg (Memory.initial p.font) hmask

/-- Every component has its reset value, whatever the parameters and the inputs are. -/
theorem State.atReset_resetWith (p : Params) (k : BitVec 16) (b : Byte) (n : Nat) :
    (State.resetWith p k b n).AtReset := by
  have hfont : ∀ a, (h : a < 80) → (State.resetWith p k b n).readByte a = p.font[a] := fun a h =>
    (State.readByte_resetWith p k b n (by omega)).trans (dif_pos h)
  have hzero : ∀ a, 80 ≤ a → a < 4096 → (State.resetWith p k b n).readByte a = 0#8 := fun a h h' =>
    (State.readByte_resetWith p k b n h').trans (dif_neg h.not_gt)
  have hregs : ∀ r, (State.resetWith p k b n).getV r = 0#8 := fun r => Vector.getElem_replicate r.isLt
  have hslots : ∀ j : Fin 16, (State.resetWith p k b n).stack[j.val] = 0#16 := fun j => Vector.getElem_replicate j.isLt
  exact ⟨hfont, hzero, hregs, rfl, rfl, hslots, rfl, rfl, Framebuffer.cell_blank, rfl⟩

/-- Settles O5: both resets fill in the same values, and the port hands on inputs and parameters. -/
theorem resetGivesEveryComponentItsValue : Obligations.ResetGivesEveryComponentItsValue := by
  unfold Obligations.ResetGivesEveryComponentItsValue
  exact ⟨State.atReset_resetWith _ _ _ _, fun s => ⟨State.atReset_resetWith _ _ _ _, rfl, rfl, rfl⟩⟩

/-- Settles O6: reset lists no byte and shows no event. -/
theorem resetMeetsTheStepInvariant : Obligations.ResetMeetsTheStepInvariant := by
  unfold Obligations.ResetMeetsTheStepInvariant
  exact ⟨Memory.wf_nil _, Nat.zero_le 1⟩

/-! ### The load port -/

theorem State.load_of_le (s : State) {image : List Byte} (h : image.length ≤ maxProgram) :
    s.load image = (.ok, s.hostReset.placeBytes programBase image) :=
  if_pos h

theorem State.load_of_gt (s : State) {image : List Byte} (h : maxProgram < image.length) :
    s.load image = (.capacityError, s) :=
  if_neg h.not_ge

theorem unchanged_placeBytes (s : State) (a : Nat) (l : List Byte) : Unchanged [.mem] s (s.placeBytes a l) := by
  obtain ⟨m, hm⟩ := State.placeBytes_frame l s a
  rw [hm]; exact unchanged_mem s m

/-- Byte `k` of an image stands `k` bytes after its start. -/
theorem State.readByte_placeBytes_add (s : State) {l : List Byte} {a k : Nat} (h : a + l.length ≤ 4096)
    (hk : k < l.length) : (s.placeBytes a l).readByte (a + k) = l[k] := by
  rw [State.readByte_placeBytes l s a (a + k) h (by omega), dif_pos (by omega)]
  simp only [Nat.add_sub_cancel_left]

/-- Placing an image leaves every byte outside it. -/
theorem State.readByte_placeBytes_of_outside (s : State) {l : List Byte} {a c : Nat} (h : a + l.length ≤ 4096)
    (hc : c < 4096) (hout : ¬ (a ≤ c ∧ c < a + l.length)) : (s.placeBytes a l).readByte c = s.readByte c := by
  rw [State.readByte_placeBytes l s a c h hc, dif_neg hout]

/-- Settles O56: the image lies past the font and inside memory, and outside it the bytes are those of a reset. -/
theorem loadResetsAndPlacesTheImage : Obligations.LoadResetsAndPlacesTheImage := by
  unfold Obligations.LoadResetsAndPlacesTheImage
  intro s image hlen
  have hfit : programBase + image.length ≤ 4096 := by rw [programBase]; omega
  obtain ⟨hfont, hzero, -⟩ : s.hostReset.AtReset := State.atReset_resetWith _ _ _ _
  refine ⟨_, s.load_of_le hlen, fun k hk => s.hostReset.readByte_placeBytes_add hfit hk, fun a ha => ?_,
    fun a ha ha' hout => ?_, unchanged_placeBytes _ _ _⟩
  · have hbelow : ¬ (programBase ≤ a ∧ a < programBase + image.length) := by rw [programBase]; omega
    exact (State.readByte_placeBytes_of_outside _ hfit (by omega) hbelow).trans (hfont a ha)
  · exact (State.readByte_placeBytes_of_outside _ hfit ha' hout).trans (hzero a ha ha')

/-- Settles O57: the length decides before anything is written. -/
theorem oversizedLoadIsRejectedWhole : Obligations.OversizedLoadIsRejectedWhole := by
  unfold Obligations.OversizedLoadIsRejectedWhole
  exact fun s image h => s.load_of_gt h

/-! ### The step that waits for a key -/

/-- A frame that lets a part go holds without it when the part came back to what it was. -/
theorem Unchanged.of_same {b c : List Part} {p : Part} {s t : State} (h : Unchanged c s t) (hp : p.same s t)
    (hc : c ⊆ p :: b) : Unchanged b s t := by
  intro q hq
  by_cases heq : q = p
  · rwa [heq]
  · exact h q fun hmem => (List.mem_cons.1 (hc hmem)).elim heq hq

/-- A step at LD Vx, K with no key down takes the advance of PC back and ends its cycle (45_timers_keys R217). -/
theorem step_of_wait {x : Nib} {s : State} (hd : decode s.fetchWord = .ok (.ldVxK x)) (hkeys : s.keys = 0#16) :
    step s = .next (s.beginCycle.setPC (s.beginCycle.pc - 2#16)).endCycle := by
  have hnone : s.beginCycle.lowestKey = none := State.lowestKey_of_keys_zero hkeys
  exact step_of_exec hd (execLdVxK_of_none hnone x)

/-- Settles O45: the advance and the rewind of PC cancel, and the rest of the cycle ticks the timers. -/
theorem waitingStepOnlyTicksTheTimers : Obligations.WaitingStepOnlyTicksTheTimers := by
  unfold Obligations.WaitingStepOnlyTicksTheTimers
  intro x s hd hkeys
  have hframe := ((unchanged_beginCycle s).trans (unchanged_setPC s.beginCycle (s.beginCycle.pc - 2#16))).trans
    (unchanged_endCycle _)
  have hpc : s.beginCycle.pc - 2#16 = s.pc := BitVec.add_sub_cancel s.pc 2#16
  exact ⟨_, step_of_wait hd hkeys, hframe.of_same (p := .pc) hpc (by decide), tickTimer_toNat _, tickTimer_toNat _, rfl⟩

end Sys2Proof.Machine
end
